-- ==== Sys2Proof/Word.lean ====
section
/-! DEFINITION. The word types of the lc3-rs core: 16-bit words, 8-bit console bytes, 3-bit register numbers. -/

namespace Sys2Proof

/-- A register value, memory word, address or instruction word: 16 bits, arithmetic modulo 65536 (00_scope.md R11). -/
abbrev Word := BitVec 16

/-- A byte of the console streams: 8 bits (00_scope.md R8, 10_state.md R27). -/
abbrev Byte := BitVec 8

/-- The number of a general-purpose register: `n` names Rn, for n in 0..7 (30_encoding.md R53). -/
abbrev Reg := Fin 8

end Sys2Proof
end

