-- ==== Sys2Proof/Syntax.lean ====
section
/-! DEFINITION. The instructions of the lc3-rs core: one constructor per row of spec/opcode_table.json, in the table's
order, and the sixteen opcode classes of 30_encoding.md R54.

Immediates and offsets stand as 30_encoding.md R52 gives them, already extended to 16 bits; WellFormed says which words
such an operand can be. The bits a format does not use (R51, R56) are kept as operands of their own: no instruction looks
at them, but a fault records the whole word (60_exceptions.md R92). Log entry 21. -/

namespace Sys2Proof

/-- The sixteen opcode classes the source names (30_encoding.md R54). Their numbers are in Decode.lean. -/
inductive Opcode where
  | branch | add | load | store | jumpr | and | loadr | storer
  | rti | not | loadi | storei | jump | res | lea | trap
  deriving DecidableEq, Repr

/-- One constructor per row of spec/opcode_table.json. -/
inductive Instr where
  /-- BRANCH: `cond` is the mask n z p, n its highest bit (41_control.md R68). -/
  | branch (cond : BitVec 3) (pcoffset9 : Word)
  /-- ADD, register mode (40_operate.md R62). -/
  | addRegister (dr sr1 : Reg) (unused : BitVec 2) (sr2 : Reg)
  /-- ADD, immediate mode (40_operate.md R63). -/
  | addImmediate (dr sr1 : Reg) (imm5 : Word)
  /-- LOAD (42_load_store.md R74). -/
  | load (dr : Reg) (pcoffset9 : Word)
  /-- STORE (42_load_store.md R78). -/
  | store (sr : Reg) (pcoffset9 : Word)
  /-- JUMPR, PC-relative mode: JSR (41_control.md R70). -/
  | jumprJsr (pcoffset11 : Word)
  /-- JUMPR, register mode: JSRR (41_control.md R71). `unusedHi` is bits 10-9, `unusedLo` bits 5-0. -/
  | jumprJsrr (unusedHi : BitVec 2) (baseR : Reg) (unusedLo : BitVec 6)
  /-- AND, register mode (40_operate.md R64). -/
  | andRegister (dr sr1 : Reg) (unused : BitVec 2) (sr2 : Reg)
  /-- AND, immediate mode (40_operate.md R65). -/
  | andImmediate (dr sr1 : Reg) (imm5 : Word)
  /-- LOADR (42_load_store.md R76). -/
  | loadr (dr baseR : Reg) (offset6 : Word)
  /-- STORER (42_load_store.md R80). -/
  | storer (sr baseR : Reg) (offset6 : Word)
  /-- RTI: bits 11-0 are not decoded (44_reserved.md R91). -/
  | rti (notDecoded : BitVec 12)
  /-- NOT (40_operate.md R66). -/
  | not (dr sr : Reg) (unused : BitVec 6)
  /-- LOADI (42_load_store.md R75). -/
  | loadi (dr : Reg) (pcoffset9 : Word)
  /-- STOREI (42_load_store.md R79). -/
  | storei (sr : Reg) (pcoffset9 : Word)
  /-- JUMP (41_control.md R69). `unusedHi` is bits 11-9, `unusedLo` bits 5-0. -/
  | jump (unusedHi : BitVec 3) (baseR : Reg) (unusedLo : BitVec 6)
  /-- RES: bits 11-0 are not decoded (44_reserved.md R90). -/
  | res (notDecoded : BitVec 12)
  /-- LEA (42_load_store.md R77). -/
  | lea (dr : Reg) (pcoffset9 : Word)
  /-- TRAP: `unused` is bits 11-8 (43_trap.md R81). -/
  | trap (unused : BitVec 4) (vector8 : Byte)
  deriving DecidableEq, Repr

/-- Why the decoder gives no instruction. Every 16-bit word decodes (30_encoding.md R55), so the one reason is that there is no word. -/
inductive DecodeError where
  /-- The list of words is empty. -/
  | noWord
  deriving DecidableEq, Repr

end Sys2Proof
end

