-- ==== Sys2Proof/WellFormed.lean ====
section
/-! DEFINITION. Which terms of Instr are instructions of the machine: an immediate or offset is a word in the signed range
that its field can give (30_encoding.md R52). Register numbers, masks and vectors have no bad value: their types have
the field's width. -/

namespace Sys2Proof

/-- `v`, read in two's complement, lies in `lo .. hi`. -/
def inRange (lo hi : Int) (v : Word) : Bool := decide (lo ≤ v.toInt) && decide (v.toInt ≤ hi)

/-- The ranges of 30_encoding.md R52. -/
def fitsImm5 (v : Word) : Bool := inRange (-16) 15 v
/-- The range of offset6 (30_encoding.md R52). -/
def fitsOffset6 (v : Word) : Bool := inRange (-32) 31 v
/-- The range of pcoffset9 (30_encoding.md R52). -/
def fitsPcoffset9 (v : Word) : Bool := inRange (-256) 255 v
/-- The range of pcoffset11 (30_encoding.md R52). -/
def fitsPcoffset11 (v : Word) : Bool := inRange (-1024) 1023 v

/-- Every operand of the instruction is one its encoding can give (30_encoding.md R52, R53). -/
def wellFormed : Instr → Bool
  | .branch _ off => fitsPcoffset9 off
  | .addRegister _ _ _ _ => true
  | .addImmediate _ _ imm => fitsImm5 imm
  | .load _ off => fitsPcoffset9 off
  | .store _ off => fitsPcoffset9 off
  | .jumprJsr off => fitsPcoffset11 off
  | .jumprJsrr _ _ _ => true
  | .andRegister _ _ _ _ => true
  | .andImmediate _ _ imm => fitsImm5 imm
  | .loadr _ _ off => fitsOffset6 off
  | .storer _ _ off => fitsOffset6 off
  | .rti _ => true
  | .not _ _ _ => true
  | .loadi _ off => fitsPcoffset9 off
  | .storei _ off => fitsPcoffset9 off
  | .jump _ _ _ => true
  | .res _ => true
  | .lea _ off => fitsPcoffset9 off
  | .trap _ _ => true

end Sys2Proof
end

