-- ==== Sys2Proof/Decode.lean ====
section
/-! DEFINITION. From words to instructions and back: the opcode map (30_encoding.md R54), the field positions (R50, R51),
sign extension (00_scope.md R12, 30_encoding.md R52), the decoder and the encoder.

Opcode numbers and the positions of sr2 and of JSRR's baseR are the spec's own choice from general knowledge
(92_eei_decisions.md D1, D3): log entries 1 and 3. -/

namespace Sys2Proof

/-- `sext_N(v)`: the N-bit field value `v` with its sign bit copied into all higher bits of 16 (00_scope.md R12).
Defined on an N-bit field only, as 90_conflicts.md C3 decides; log entry 20. -/
def sext {n : Nat} (v : BitVec n) : Word := v.signExtend 16

/-- `zext_16(b)`: a byte with bits 15-8 zero (00_scope.md R12). -/
def zext (b : Byte) : Word := b.setWidth 16

/-- Bits 7-0 of a word. -/
def lowByte (w : Word) : Byte := w.extractLsb' 0 8

/-- Bits 15-8 of a word. -/
def highByte (w : Word) : Byte := w.extractLsb' 8 8

/-- The opcode map, the one table of opcode numbers: entry `k` is the class of bits 15-12 = `k` (30_encoding.md R54).
PRESUMED by the spec (D1), unsafe: log entry 1. -/
def opcodeMap : Vector Opcode 16 :=
  #v[.branch, .add, .load, .store, .jumpr, .and, .loadr, .storer,
     .rti, .not, .loadi, .storei, .jump, .res, .lea, .trap]

/-- The class of an opcode number. -/
def Opcode.ofNibble (n : BitVec 4) : Opcode := opcodeMap[n.toNat]

/-- The opcode number of a class: its place in `opcodeMap`. -/
def Opcode.nibble (o : Opcode) : BitVec 4 := BitVec.ofNat 4 (opcodeMap.toList.idxOf o)

/-- Bits 15-12 (30_encoding.md R50). -/
def opcodeOf (w : Word) : Opcode := Opcode.ofNibble (w.extractLsb' 12 4)

/-- A 3-bit register field as a register number (30_encoding.md R53). -/
def regOfBits (b : BitVec 3) : Reg := b.toFin

/-- A register number as its 3-bit field. -/
def regBits (r : Reg) : BitVec 3 := BitVec.ofNat 3 r.val

/-- The register field whose lowest bit is bit `lo`. -/
def regField (lo : Nat) (w : Word) : Reg := regOfBits (w.extractLsb' lo 3)

/-- dr, or sr of a store: bits 11-9 (30_encoding.md R51). -/
def fieldHighReg (w : Word) : Reg := regField 9 w

/-- sr1, sr of NOT, or baseR: bits 8-6 (30_encoding.md R51; for JSRR log entry 3). -/
def fieldMidReg (w : Word) : Reg := regField 6 w

/-- sr2: bits 2-0 (30_encoding.md R51; log entry 3). -/
def fieldSr2 (w : Word) : Reg := regField 0 w

/-- The mode bit of ADD and AND: bit 5, 1 for immediate (30_encoding.md R54). -/
def modeIsImmediate (w : Word) : Bool := w.getLsbD 5

/-- The mode bit of JUMPR: bit 11, 1 for JSR (30_encoding.md R54). -/
def modeIsJsr (w : Word) : Bool := w.getLsbD 11

/-- imm5 = sext_5(ir[4:0]) (30_encoding.md R52). -/
def fieldImm5 (w : Word) : Word := sext (w.extractLsb' 0 5)

/-- offset6 = sext_6(ir[5:0]) (30_encoding.md R52). -/
def fieldOffset6 (w : Word) : Word := sext (w.extractLsb' 0 6)

/-- pcoffset9 = sext_9(ir[8:0]) (30_encoding.md R52). -/
def fieldPcoffset9 (w : Word) : Word := sext (w.extractLsb' 0 9)

/-- pcoffset11 = sext_11(ir[10:0]) (30_encoding.md R52). -/
def fieldPcoffset11 (w : Word) : Word := sext (w.extractLsb' 0 11)

/-- The instruction a word is. Total: every word is exactly one (30_encoding.md R55). -/
def decodeWord (w : Word) : Instr :=
  match opcodeOf w with
  | .branch => .branch (w.extractLsb' 9 3) (fieldPcoffset9 w)
  | .add =>
    if modeIsImmediate w then .addImmediate (fieldHighReg w) (fieldMidReg w) (fieldImm5 w)
    else .addRegister (fieldHighReg w) (fieldMidReg w) (w.extractLsb' 3 2) (fieldSr2 w)
  | .load => .load (fieldHighReg w) (fieldPcoffset9 w)
  | .store => .store (fieldHighReg w) (fieldPcoffset9 w)
  | .jumpr =>
    if modeIsJsr w then .jumprJsr (fieldPcoffset11 w)
    else .jumprJsrr (w.extractLsb' 9 2) (fieldMidReg w) (w.extractLsb' 0 6)
  | .and =>
    if modeIsImmediate w then .andImmediate (fieldHighReg w) (fieldMidReg w) (fieldImm5 w)
    else .andRegister (fieldHighReg w) (fieldMidReg w) (w.extractLsb' 3 2) (fieldSr2 w)
  | .loadr => .loadr (fieldHighReg w) (fieldMidReg w) (fieldOffset6 w)
  | .storer => .storer (fieldHighReg w) (fieldMidReg w) (fieldOffset6 w)
  | .rti => .rti (w.extractLsb' 0 12)
  | .not => .not (fieldHighReg w) (fieldMidReg w) (w.extractLsb' 0 6)
  | .loadi => .loadi (fieldHighReg w) (fieldPcoffset9 w)
  | .storei => .storei (fieldHighReg w) (fieldPcoffset9 w)
  | .jump => .jump (w.extractLsb' 9 3) (fieldMidReg w) (w.extractLsb' 0 6)
  | .res => .res (w.extractLsb' 0 12)
  | .lea => .lea (fieldHighReg w) (fieldPcoffset9 w)
  | .trap => .trap (w.extractLsb' 8 4) (w.extractLsb' 0 8)

/-- The first instruction of a list of words, and the words after it: one word an instruction, never more
(30_encoding.md R49). -/
def decode : List Word → Except DecodeError (Instr × List Word)
  | [] => .error .noWord
  | w :: rest => .ok (decodeWord w, rest)

/-- The fixed name the host reads the decoder by: the instruction whose bits are `w`, numbered as
spec/opcode_table.json numbers them. An instruction is one 16-bit word, so more than 16 bits are no instruction. -/
def decodeTableWord (nbits w : Nat) : Option Instr :=
  if nbits ≤ 16 then
    match decode [BitVec.ofNat 16 (w % 2 ^ nbits)] with
    | .ok (i, _) => some i
    | .error _ => none
  else none

/-- The word of a well-formed instruction: its fields at the places of 30_encoding.md R51, highest bits first. -/
def encode : Instr → Word
  | .branch cond off => Opcode.branch.nibble ++ cond ++ off.extractLsb' 0 9
  | .addRegister dr sr1 unused sr2 =>
    Opcode.add.nibble ++ regBits dr ++ regBits sr1 ++ 0#1 ++ unused ++ regBits sr2
  | .addImmediate dr sr1 imm => Opcode.add.nibble ++ regBits dr ++ regBits sr1 ++ 1#1 ++ imm.extractLsb' 0 5
  | .load dr off => Opcode.load.nibble ++ regBits dr ++ off.extractLsb' 0 9
  | .store sr off => Opcode.store.nibble ++ regBits sr ++ off.extractLsb' 0 9
  | .jumprJsr off => Opcode.jumpr.nibble ++ 1#1 ++ off.extractLsb' 0 11
  | .jumprJsrr unusedHi baseR unusedLo => Opcode.jumpr.nibble ++ 0#1 ++ unusedHi ++ regBits baseR ++ unusedLo
  | .andRegister dr sr1 unused sr2 =>
    Opcode.and.nibble ++ regBits dr ++ regBits sr1 ++ 0#1 ++ unused ++ regBits sr2
  | .andImmediate dr sr1 imm => Opcode.and.nibble ++ regBits dr ++ regBits sr1 ++ 1#1 ++ imm.extractLsb' 0 5
  | .loadr dr baseR off => Opcode.loadr.nibble ++ regBits dr ++ regBits baseR ++ off.extractLsb' 0 6
  | .storer sr baseR off => Opcode.storer.nibble ++ regBits sr ++ regBits baseR ++ off.extractLsb' 0 6
  | .rti bits => Opcode.rti.nibble ++ bits
  | .not dr sr unused => Opcode.not.nibble ++ regBits dr ++ regBits sr ++ unused
  | .loadi dr off => Opcode.loadi.nibble ++ regBits dr ++ off.extractLsb' 0 9
  | .storei sr off => Opcode.storei.nibble ++ regBits sr ++ off.extractLsb' 0 9
  | .jump unusedHi baseR unusedLo => Opcode.jump.nibble ++ unusedHi ++ regBits baseR ++ unusedLo
  | .res bits => Opcode.res.nibble ++ bits
  | .lea dr off => Opcode.lea.nibble ++ regBits dr ++ off.extractLsb' 0 9
  | .trap unused vec => Opcode.trap.nibble ++ unused ++ vec

end Sys2Proof
end

