-- ==== Sys2Proof/Config.lean ====
section
/-! DEFINITION. What is fixed for the machine: the parameters the spec fixes (00_scope.md R8), and the two texts it leaves
open (R9), which are constants without a body, so that no proof can depend on what they are. -/

namespace Sys2Proof

/-- Memory has exactly 65536 words (00_scope.md R8, 20_memory.md R34). -/
def Config.memorySize : Nat := 65536

/-- The value of `trapLinksR7` that the spec chooses: TRAP does not write R7 (00_scope.md R9, 43_trap.md R82, D5).
The meaning of TRAP takes the parameter as an argument, and Machine/Trap.lean gives it this value.
DESIGN CHOICE of the spec, unsafe: log entry 5. -/
def Config.trapLinksR7 : Bool := false

/-- The prompt IN writes before it reads: an open parameter, a list of bytes (00_scope.md R9, 43_trap.md R86, D8).
Safe: it has no body, so every claim holds for every prompt. Log entry 9. -/
opaque Config.inPrompt : List Byte

/-- The notice HALT writes: an open parameter, a list of bytes (00_scope.md R9, 43_trap.md R88, D9).
Safe: it has no body, so every claim holds for every notice. Log entry 10. -/
opaque Config.haltNotice : List Byte

end Sys2Proof
end

