-- ==== Sys2Proof/Machine/State.lean ====
section
/-! DEFINITION. The state of the lc3-rs core as plain data: everything 10_state.md and 60_exceptions.md give the machine,
the reasons a step can stop, and the state after reset. -/

namespace Sys2Proof.Machine

/-- The condition classes of a value (10_state.md R22). -/
inductive FlagClass where
  | positive | zero | negative
  deriving DecidableEq, Repr

/-- What a fault records: its kind and the kind's information (60_exceptions.md R92). `addr` is the address the word was
fetched from, `PC - 1`. -/
inductive FaultRecord where
  /-- Raised by RES and RTI (44_reserved.md R90, R91). -/
  | illegalOpcode (ir addr : Word)
  /-- Raised by TRAP with a vector outside 0x20-0x25 (43_trap.md R89). -/
  | undefinedTrap (vector : Byte) (ir addr : Word)
  /-- Raised by GETC and IN at the end of the input (43_trap.md R83, R86). -/
  | inputExhausted (vector : Byte) (ir addr : Word)
  deriving DecidableEq, Repr

/-- The run state (10_state.md R28): `halted` and `faulted` are terminal. -/
inductive RunState where
  | running
  | halted
  | faulted (f : FaultRecord)
  deriving DecidableEq, Repr

/-- What ConsoleRead answers (00_scope.md R15); `noAnswer` is the host that has not answered (60_exceptions.md R100). -/
inductive ConsoleAnswer where
  | byte (b : Byte)
  | endOfInput
  | noAnswer
  deriving DecidableEq, Repr

/-- The six services of the trap dispatcher (43_trap.md R81). Their vectors are in Machine/Trap.lean. -/
inductive TrapService where
  | getc | out | puts | input | putsp | halt
  deriving DecidableEq, Repr

/-- Memory: the listed words, (address, word) pairs, addresses strictly rising, no word equal to what an unlisted address
reads as (Memory.wf). The addressable unit is the 16-bit word (20_memory.md R36). DESIGN CHOICE, safe: log entry 18. -/
abbrev Memory := List (Nat × Word)

/-- The machine's state: plain data, one field for each piece of state the spec names. -/
structure State where
  /-- R0 to R7 (10_state.md R18). -/
  regs : Vector Word 8
  /-- The program counter (10_state.md R21). -/
  pc : Word
  /-- The condition flags register (10_state.md R22, R23). -/
  cond : Word
  /-- The memory array (20_memory.md R33). -/
  mem : Memory
  /-- The run state (10_state.md R28). -/
  run : RunState
  /-- The console input stream: the bytes the host gives, in order (00_scope.md R9, D10). -/
  input : List Byte
  /-- Whether the host answers EndOfInput after the last byte of `input`, or gives no answer (D10, 60_exceptions.md R100). -/
  inputEnded : Bool
  /-- The number of input bytes consumed so far (10_state.md R29). -/
  inPos : Nat
  /-- The bytes written to the console so far, oldest first (10_state.md R29). -/
  out : List Byte
  /-- The blocking wait of GETC and IN: the TRAP word whose console read has no answer yet (10_state.md R32,
  60_exceptions.md R100). DESIGN CHOICE, safe: log entry 15. -/
  wait : Option Word
  deriving DecidableEq, Repr

/-- Why `step` or a meaning answers no next state. None of these is a fault of the spec's: those are run states. -/
inductive Fault where
  /-- Raised by step: the run state is HALTED, and no step runs (30_encoding.md R48). Safe. -/
  | halted
  /-- Raised by step: the run state is FAULTED, and no step runs (30_encoding.md R48). Safe. -/
  | faulted
  /-- Raised by TRAP PUTS and TRAP PUTSP when no word of memory is zero: the service never ends (43_trap.md R85, R87,
  D11), so there is no next state. Safe: the model stops where the machine hangs. Log entry 12. -/
  | endlessString
  deriving DecidableEq, Repr

/-- Why the model gives an instruction no meaning. -/
inductive Refusal where
  /-- Raised by exec for an instruction without a meaning yet; no arm of exec raises it now. Safe. -/
  | notModelled (mnemonic : String)
  deriving DecidableEq, Repr

/-- What a meaning answers. -/
abbrev Result := Host.Outcome State Fault Refusal

/-- The machine right after reset: every register and word of memory zero, RUNNING, streams empty (10_state.md R30,
70_reset_and_hazards.md R105), before the loader has placed a program (log entry 6). The host's input stream is an open
parameter: empty here, DESIGN CHOICE, unsafe: log entry 19. -/
def State.reset : State where
  regs := Vector.replicate 8 0
  pc := 0
  cond := 0
  mem := []
  run := .running
  input := []
  inputEnded := true
  inPos := 0
  out := []
  wait := none

end Sys2Proof.Machine
end

