-- ==== Sys2Proof/Machine/Flags.lean ====
section
/-! DEFINITION. The condition flags: classification of a value, the bits of COND, the flag-update step and BRANCH's test
(10_state.md R22 to R25, 41_control.md R68). This file is the one table of COND's bits (log entry 2). -/

namespace Sys2Proof.Machine

/-- FL_POS, bit 0 of COND (10_state.md R23). PRESUMED by the spec (D2): log entry 2. -/
def flPos : Word := 0x0001
/-- FL_ZRO, bit 1 of COND (10_state.md R23). -/
def flZro : Word := 0x0002
/-- FL_NEG, bit 2 of COND (10_state.md R23). -/
def flNeg : Word := 0x0004

/-- `classify(v)` (10_state.md R22). -/
def classify (v : Word) : FlagClass :=
  if v = 0 then .zero else if v.msb then .negative else .positive

/-- The one-hot pattern of a class in COND (10_state.md R23). -/
def FlagClass.bits : FlagClass → Word
  | .positive => flPos
  | .zero => flZro
  | .negative => flNeg

/-- `setcc(v)`, the flag-update step (10_state.md R22). -/
def State.setcc (s : State) (v : Word) : State := { s with cond := (classify v).bits }

/-- BRANCH's test, `(cond & COND) != 0` (41_control.md R68): bit 2 of the mask is n, bit 1 z, bit 0 p. -/
def condHolds (cond : BitVec 3) (flags : Word) : Bool := (cond.setWidth 16 &&& flags) != 0

end Sys2Proof.Machine
end

