-- ==== Sys2Proof/Machine/Ops.lean ====
section
/-! DEFINITION. The named operations over registers, memory, the console and the run state (00_scope.md R13 to R15), and
raising a fault as one shared operation (60_exceptions.md R93). The core has no return from a fault (R97, R98), so none
stands beside it. -/

namespace Sys2Proof.Machine

/-! ## Registers -/

/-- `x[r]` (00_scope.md R13). -/
def State.readReg (s : State) (r : Reg) : Word := s.regs[r]

/-- `x[r] <- v` (00_scope.md R13). No register is hardwired (10_state.md R18). -/
def State.writeReg (s : State) (r : Reg) (v : Word) : State := { s with regs := s.regs.set r v }

/-- `pc <- target` (00_scope.md R13). -/
def State.setPc (s : State) (target : Word) : State := { s with pc := target }

/-- The end of an instruction that produces a value: `x[dr] <- v; setcc(v)` (10_state.md R25). -/
def State.writeResult (s : State) (dr : Reg) (v : Word) : State := (s.writeReg dr v).setcc v

/-- The register file as the host reads it: slots 0 to 7 are R0 to R7, 8 is PC, 9 is COND (10_state.md R17, R27). -/
def State.slot (s : State) (n : Fin 10) : Word :=
  if h : n.val < 8 then s.readReg ⟨n.val, h⟩ else if n.val = 8 then s.pc else s.cond

/-! ## Memory -/

/-- What an address that is not listed reads as: memory starts as all zeros (20_memory.md R42). -/
def Memory.unlisted : Word := 0

/-- The canonical form: addresses strictly rising and below 65536, no listed word equal to what an unlisted address reads as. -/
abbrev Memory.wf (m : Memory) : Prop :=
  m.Pairwise (fun c d => c.1 < d.1) ∧ ∀ c ∈ m, c.1 < Config.memorySize ∧ c.2 ≠ Memory.unlisted

/-- The word at an address of the list. -/
def Memory.readAt : Memory → Nat → Word
  | [], _ => Memory.unlisted
  | (k, w) :: rest, a => if k = a then w else Memory.readAt rest a

/-- The list with one more cell before it, unless the cell reads as unlisted. -/
def Memory.cons (a : Nat) (v : Word) (rest : Memory) : Memory :=
  if v = Memory.unlisted then rest else (a, v) :: rest

/-- The list with the word at one address replaced, in canonical form again. -/
def Memory.writeAt : Memory → Nat → Word → Memory
  | [], a, v => Memory.cons a v []
  | (k, w) :: rest, a, v =>
    if k < a then (k, w) :: Memory.writeAt rest a v
    else if k = a then Memory.cons a v rest
    else Memory.cons a v ((k, w) :: rest)

/-- `MemRead(a, 1)` (00_scope.md R14). Every 16-bit address names a word, so no read faults (20_memory.md R35, R37). -/
def Memory.read (m : Memory) (a : Word) : Word := m.readAt a.toNat

/-- `MemWrite(a, 1, v)` (00_scope.md R14). No write faults (20_memory.md R35, R37). -/
def Memory.write (m : Memory) (a v : Word) : Memory := m.writeAt a.toNat v

/-- The words of a list written at consecutive addresses modulo 65536 (70_reset_and_hazards.md R110). -/
def Memory.writeWords : Memory → Word → List Word → Memory
  | m, _, [] => m
  | m, a, v :: vs => Memory.writeWords (m.write a v) (a + 1) vs

/-- `M[a]` (00_scope.md R14). -/
def State.readMem (s : State) (a : Word) : Word := s.mem.read a

/-- `MemWrite(a, 1, v)` (00_scope.md R14). -/
def State.writeMem (s : State) (a v : Word) : State := { s with mem := s.mem.write a v }

/-- The words from `a` on up to the first zero word, which ends a string (43_trap.md R85, R87). Addresses wrap modulo 65536.
Answers none when `fuel` words hold no zero. -/
def Memory.stringWords (m : Memory) : Nat → Word → Option (List Word)
  | 0, _ => none
  | fuel + 1, a =>
    if m.read a = 0 then some [] else (Memory.stringWords m fuel (a + 1)).map (m.read a :: ·)

/-! ## Fetch -/

/-- The word at PC (30_encoding.md R48). -/
def State.fetchWord (s : State) : Word := s.readMem s.pc

/-- The state an instruction executes in: PC already at the next word, modulo 65536 (30_encoding.md R48, 10_state.md R21). -/
def State.afterFetch (s : State) : State := s.setPc (s.pc + 1)

/-- The address the executing instruction was fetched from, `PC - 1` modulo 65536 (60_exceptions.md R92). -/
def State.instrAddr (s : State) : Word := s.pc - 1

/-! ## Console -/

/-- `ConsoleWrite` of each byte in order (00_scope.md R15). Output is always accepted (70_reset_and_hazards.md R115). -/
def State.consoleWrite (s : State) (bs : List Byte) : State := { s with out := s.out ++ bs }

/-- What `ConsoleRead()` answers in this state (00_scope.md R15, 60_exceptions.md R100, D10). -/
def State.consoleAnswer (s : State) : ConsoleAnswer :=
  match s.input[s.inPos]? with
  | some b => .byte b
  | none => if s.inputEnded then .endOfInput else .noAnswer

/-- One input byte consumed (10_state.md R29). -/
def State.consumeByte (s : State) : State := { s with inPos := s.inPos + 1 }

/-- The wait of a blocking read begun or ended (60_exceptions.md R100). -/
def State.setWait (s : State) (w : Option Word) : State := { s with wait := w }

/-! ## Run state and faults -/

/-- `halt`: the run state becomes HALTED (00_scope.md R15). -/
def State.halt (s : State) : State := { s with run := .halted }

/-- `raise F(info)`: the run state becomes FAULTED(F, info), and nothing else changes (60_exceptions.md R93). -/
def State.raise (s : State) (f : FaultRecord) : State := { s with run := .faulted f }

/-- The spec's own numbers of the fault kinds (60_exceptions.md R92, D12): log entry 13. -/
def FaultRecord.code : FaultRecord → Nat
  | .illegalOpcode _ _ => 1
  | .undefinedTrap _ _ _ => 2
  | .inputExhausted _ _ _ => 3

/-- The instruction word a fault recorded (60_exceptions.md R92). -/
def FaultRecord.ir : FaultRecord → Word
  | .illegalOpcode ir _ => ir
  | .undefinedTrap _ ir _ => ir
  | .inputExhausted _ ir _ => ir

/-- The address a fault recorded (60_exceptions.md R92). -/
def FaultRecord.addr : FaultRecord → Word
  | .illegalOpcode _ a => a
  | .undefinedTrap _ _ a => a
  | .inputExhausted _ _ a => a

/-- IllegalOpcode with its record (44_reserved.md R90, R91). -/
def State.raiseIllegalOpcode (s : State) (ir : Word) : State := s.raise (.illegalOpcode ir s.instrAddr)

/-- UndefinedTrap with its record (43_trap.md R89). -/
def State.raiseUndefinedTrap (s : State) (ir : Word) : State :=
  s.raise (.undefinedTrap (lowByte ir) ir s.instrAddr)

/-- InputExhausted with its record (43_trap.md R83, R86). -/
def State.raiseInputExhausted (s : State) (ir : Word) : State :=
  s.raise (.inputExhausted (lowByte ir) ir s.instrAddr)

/-- The console read of GETC and IN for the TRAP word `ir` (43_trap.md R83, R86): a byte goes to R0 with bits 15-8 zero
and sets no flag; the end of the input is InputExhausted; without an answer the core waits (60_exceptions.md R100).
Entering the read and going on with it are this one operation. -/
def State.readToR0 (s : State) (ir : Word) : State :=
  match s.consoleAnswer with
  | .byte b => (s.consumeByte.writeReg 0 (zext b)).setWait none
  | .endOfInput => (s.raiseInputExhausted ir).setWait none
  | .noAnswer => s.setWait (some ir)

end Sys2Proof.Machine
end

