-- ==== Sys2Proof/Machine/Operands.lean ====
section
/-! DEFINITION. The operand forms: the three addressing modes (42_load_store.md R73), the targets of control transfer
(41_control.md R67), and the ALU's operations (40_operate.md R61). Every address is computed modulo 65536 (20_memory.md
R35), from the incremented PC. -/

namespace Sys2Proof.Machine

/-- PC-relative: `EA = PC + offset` (42_load_store.md R73). -/
def State.pcRelative (s : State) (offset : Word) : Word := s.pc + offset

/-- Indirect: the word at the PC-relative address is the address (42_load_store.md R73). -/
def State.indirect (s : State) (offset : Word) : Word := s.readMem (s.pcRelative offset)

/-- Base plus offset: `EA = x[baseR] + offset` (42_load_store.md R73). The base register keeps its value. -/
def State.baseOffset (s : State) (baseR : Reg) (offset : Word) : Word := s.readReg baseR + offset

/-- Wrapping addition (40_operate.md R61). -/
def aluAdd (a b : Word) : Word := a + b

/-- Bitwise AND (40_operate.md R61). -/
def aluAnd (a b : Word) : Word := a &&& b

/-- Bitwise complement within 16 bits (40_operate.md R61). -/
def aluNot (a : Word) : Word := ~~~a

end Sys2Proof.Machine
end

