-- ==== Sys2Proof/Machine/Control.lean ====
section
/-! DEFINITION. Control transfer: BRANCH, JUMP and JUMPR (41_control.md). None sets a flag (R67); every 16-bit value is a
legal target. -/

namespace Sys2Proof.Machine

/-- The link register R7 (41_control.md R72). -/
def linkReg : Reg := 7

/-- The link step of JUMPR, and of TRAP where it links: `x[7] <- PC` (41_control.md R70, 43_trap.md R81). -/
def State.link (s : State) : State := s.writeReg linkReg s.pc

/-- BRANCH (41_control.md R68). -/
def execBranch (cond : BitVec 3) (pcoffset9 : Word) (s : State) : Result :=
  .next (if condHolds cond s.cond then s.setPc (s.pcRelative pcoffset9) else s)

/-- JUMP (41_control.md R69). Bits 11-9 and 5-0 are ignored (30_encoding.md R56). -/
def execJump (_unusedHi : BitVec 3) (baseR : Reg) (_unusedLo : BitVec 6) (s : State) : Result :=
  .next (s.setPc (s.readReg baseR))

/-- JUMPR, PC-relative mode: JSR (41_control.md R70). -/
def execJumprJsr (pcoffset11 : Word) (s : State) : Result :=
  .next (s.link.setPc (s.pcRelative pcoffset11))

/-- JUMPR, register mode: JSRR (41_control.md R71). The base is read after the link is written (D15; log entry 16).
Bits 10-9 and 5-0 are ignored (30_encoding.md R56). -/
def execJumprJsrr (_unusedHi : BitVec 2) (baseR : Reg) (_unusedLo : BitVec 6) (s : State) : Result :=
  .next (s.link.setPc (s.link.readReg baseR))

end Sys2Proof.Machine
end

