-- ==== Sys2Proof/Machine/LoadStore.lean ====
section
/-! DEFINITION. Loads, LEA and stores (42_load_store.md). Loads and LEA write dr and set the flags; stores set none. -/

namespace Sys2Proof.Machine

/-- LOAD (42_load_store.md R74). -/
def execLoad (dr : Reg) (pcoffset9 : Word) (s : State) : Result :=
  .next (s.writeResult dr (s.readMem (s.pcRelative pcoffset9)))

/-- LOADI (42_load_store.md R75): the pointer is read first, then the data. -/
def execLoadi (dr : Reg) (pcoffset9 : Word) (s : State) : Result :=
  .next (s.writeResult dr (s.readMem (s.indirect pcoffset9)))

/-- LOADR (42_load_store.md R76). -/
def execLoadr (dr baseR : Reg) (offset6 : Word) (s : State) : Result :=
  .next (s.writeResult dr (s.readMem (s.baseOffset baseR offset6)))

/-- LEA (42_load_store.md R77): the address itself, no memory access; the flags are set. -/
def execLea (dr : Reg) (pcoffset9 : Word) (s : State) : Result :=
  .next (s.writeResult dr (s.pcRelative pcoffset9))

/-- STORE (42_load_store.md R78). -/
def execStore (sr : Reg) (pcoffset9 : Word) (s : State) : Result :=
  .next (s.writeMem (s.pcRelative pcoffset9) (s.readReg sr))

/-- STOREI (42_load_store.md R79): the pointer is read before the write. -/
def execStorei (sr : Reg) (pcoffset9 : Word) (s : State) : Result :=
  .next (s.writeMem (s.indirect pcoffset9) (s.readReg sr))

/-- STORER (42_load_store.md R80). -/
def execStorer (sr baseR : Reg) (offset6 : Word) (s : State) : Result :=
  .next (s.writeMem (s.baseOffset baseR offset6) (s.readReg sr))

end Sys2Proof.Machine
end

