-- ==== Sys2Proof/Machine/Operate.lean ====
section
/-! DEFINITION. The operate instructions ADD, AND and NOT (40_operate.md). Each reads its sources, writes dr and sets the
flags from the value written. -/

namespace Sys2Proof.Machine

/-- ADD, register mode (40_operate.md R62). Bits 4-3 are ignored (30_encoding.md R56). -/
def execAddRegister (dr sr1 : Reg) (_unused : BitVec 2) (sr2 : Reg) (s : State) : Result :=
  .next (s.writeResult dr (aluAdd (s.readReg sr1) (s.readReg sr2)))

/-- ADD, immediate mode (40_operate.md R63). -/
def execAddImmediate (dr sr1 : Reg) (imm5 : Word) (s : State) : Result :=
  .next (s.writeResult dr (aluAdd (s.readReg sr1) imm5))

/-- AND, register mode (40_operate.md R64). Bits 4-3 are ignored (30_encoding.md R56). -/
def execAndRegister (dr sr1 : Reg) (_unused : BitVec 2) (sr2 : Reg) (s : State) : Result :=
  .next (s.writeResult dr (aluAnd (s.readReg sr1) (s.readReg sr2)))

/-- AND, immediate mode (40_operate.md R65). -/
def execAndImmediate (dr sr1 : Reg) (imm5 : Word) (s : State) : Result :=
  .next (s.writeResult dr (aluAnd (s.readReg sr1) imm5))

/-- NOT (40_operate.md R66). Bits 5-0 are ignored (30_encoding.md R56). -/
def execNot (dr sr : Reg) (_unused : BitVec 6) (s : State) : Result :=
  .next (s.writeResult dr (aluNot (s.readReg sr)))

end Sys2Proof.Machine
end

