-- ==== Sys2Proof/Machine/Reserved.lean ====
section
/-! DEFINITION. The illegal opcodes RES and RTI (44_reserved.md): each raises IllegalOpcode, every time. -/

namespace Sys2Proof.Machine

/-- RES (44_reserved.md R90). -/
def execRes (notDecoded : BitVec 12) (s : State) : Result :=
  .next (s.raiseIllegalOpcode (encode (.res notDecoded)))

/-- RTI (44_reserved.md R91). -/
def execRti (notDecoded : BitVec 12) (s : State) : Result :=
  .next (s.raiseIllegalOpcode (encode (.rti notDecoded)))

end Sys2Proof.Machine
end

