-- ==== Sys2Proof/Machine/Trap.lean ====
section
/-! DEFINITION. TRAP and the trap dispatcher with its six console services (43_trap.md). A service runs within the TRAP's
step and transfers no control (60_exceptions.md R97); none sets a flag. -/

namespace Sys2Proof.Machine

/-- The recognised vectors (43_trap.md R81). -/
def TrapService.ofVector (v : Byte) : Option TrapService :=
  if v = 0x20 then some .getc
  else if v = 0x21 then some .out
  else if v = 0x22 then some .puts
  else if v = 0x23 then some .input
  else if v = 0x24 then some .putsp
  else if v = 0x25 then some .halt
  else none

/-- Whether TRAP writes R7: the spec value of the parameter, false (43_trap.md R82, D5). Log entry 5. -/
def trapLinks : Bool := Config.trapLinksR7

/-- The bytes IN writes before its read (43_trap.md R86, D8). Log entry 9. -/
def promptBytes : List Byte := Config.inPrompt

/-- The bytes HALT writes (43_trap.md R88, D9). Log entry 10. -/
def noticeBytes : List Byte := Config.haltNotice

/-- What PUTS sends of one word: its low byte (43_trap.md R85). -/
def putsBytes (w : Word) : List Byte := [lowByte w]

/-- What PUTSP sends of one word: the low byte, and then the high byte unless it is zero (43_trap.md R87). -/
def putspBytes (w : Word) : List Byte :=
  if highByte w = 0 then [lowByte w] else [lowByte w, highByte w]

/-- The string at R0, each word sent as `sent` says. Without a zero word in memory the service never ends (43_trap.md R85,
R87, D11), which is no next state: log entry 12. -/
def State.writeString (s : State) (sent : Word → List Byte) : Result :=
  match s.mem.stringWords Config.memorySize (s.readReg 0) with
  | some ws => .next (s.consoleWrite (ws.flatMap sent))
  | none => .fault .endlessString

/-- GETC, vector 0x20 (43_trap.md R83). -/
def trapGetc (ir : Word) (s : State) : Result := .next (s.readToR0 ir)

/-- OUT, vector 0x21 (43_trap.md R84). -/
def trapOut (s : State) : Result := .next (s.consoleWrite [lowByte (s.readReg 0)])

/-- PUTS, vector 0x22 (43_trap.md R85). -/
def trapPuts (s : State) : Result := s.writeString putsBytes

/-- IN, vector 0x23 (43_trap.md R86): the prompt, then a read as GETC's; no echo. -/
def trapIn (ir : Word) (s : State) : Result := .next ((s.consoleWrite promptBytes).readToR0 ir)

/-- PUTSP, vector 0x24 (43_trap.md R87). -/
def trapPutsp (s : State) : Result := s.writeString putspBytes

/-- HALT, vector 0x25 (43_trap.md R88). -/
def trapHalt (s : State) : Result := .next (s.consoleWrite noticeBytes).halt

/-- Any other vector (43_trap.md R89). -/
def trapUndefined (ir : Word) (s : State) : Result := .next (s.raiseUndefinedTrap ir)

/-- TRAP for either value of `trapLinksR7` (43_trap.md R81, R82). -/
def trapWithLink (links : Bool) (unused : BitVec 4) (vector8 : Byte) (s : State) : Result :=
  let ir := encode (.trap unused vector8)
  let s := if links then s.link else s
  match TrapService.ofVector vector8 with
  | some .getc => trapGetc ir s
  | some .out => trapOut s
  | some .puts => trapPuts s
  | some .input => trapIn ir s
  | some .putsp => trapPutsp s
  | some .halt => trapHalt s
  | none => trapUndefined ir s

/-- TRAP (43_trap.md R81). Bits 11-8 select nothing (30_encoding.md R56); a fault records them with the word. -/
def execTrap (unused : BitVec 4) (vector8 : Byte) (s : State) : Result :=
  trapWithLink trapLinks unused vector8 s

end Sys2Proof.Machine
end

