-- ==== Sys2Proof/Machine/Dispatch.lean ====
section
/-! DEFINITION. The dispatch: the meaning of each instruction, in the state after fetch (30_encoding.md R48). -/

namespace Sys2Proof.Machine

def exec (i : Instr) (s : State) : Host.Outcome State Fault Refusal :=
  match i with
  | .branch cond off => Sys2Proof.Machine.execBranch cond off s
  | .addRegister dr sr1 unused sr2 => Sys2Proof.Machine.execAddRegister dr sr1 unused sr2 s
  | .addImmediate dr sr1 imm => Sys2Proof.Machine.execAddImmediate dr sr1 imm s
  | .load dr off => Sys2Proof.Machine.execLoad dr off s
  | .store sr off => Sys2Proof.Machine.execStore sr off s
  | .jumprJsr off => Sys2Proof.Machine.execJumprJsr off s
  | .jumprJsrr unusedHi baseR unusedLo => Sys2Proof.Machine.execJumprJsrr unusedHi baseR unusedLo s
  | .andRegister dr sr1 unused sr2 => Sys2Proof.Machine.execAndRegister dr sr1 unused sr2 s
  | .andImmediate dr sr1 imm => Sys2Proof.Machine.execAndImmediate dr sr1 imm s
  | .loadr dr baseR off => Sys2Proof.Machine.execLoadr dr baseR off s
  | .storer sr baseR off => Sys2Proof.Machine.execStorer sr baseR off s
  | .rti notDecoded => Sys2Proof.Machine.execRti notDecoded s
  | .not dr sr unused => Sys2Proof.Machine.execNot dr sr unused s
  | .loadi dr off => Sys2Proof.Machine.execLoadi dr off s
  | .storei sr off => Sys2Proof.Machine.execStorei sr off s
  | .jump unusedHi baseR unusedLo => Sys2Proof.Machine.execJump unusedHi baseR unusedLo s
  | .res notDecoded => Sys2Proof.Machine.execRes notDecoded s
  | .lea dr off => Sys2Proof.Machine.execLea dr off s
  | .trap unused vector8 => Sys2Proof.Machine.execTrap unused vector8 s

end Sys2Proof.Machine
end

