-- ==== Sys2Proof/Machine/Loader.lean ====
section
/-! DEFINITION. The loader as a host interface (70_reset_and_hazards.md R105, R110): what it does to the state before the
loop starts. No instruction uses it. -/

namespace Sys2Proof.Machine

/-- The loader places image word `i` at `origin + i` modulo 65536 and sets PC to `origin`, and does nothing else; an image
of more than 65536 words is refused, which is none (70_reset_and_hazards.md R110, 93_implementation_defined.md U7). Log entry 7. -/
def State.load (s : State) (origin : Word) (image : List Word) : Option State :=
  if image.length ≤ Config.memorySize then
    some { s with mem := s.mem.writeWords origin image, pc := origin }
  else none

/-- The host's console input stream for the run (00_scope.md R9, D10). -/
def State.withInput (s : State) (input : List Byte) (ended : Bool) : State :=
  { s with input := input, inputEnded := ended }

/-- The state when the loop starts: allocation, then load (10_state.md R30, 70_reset_and_hazards.md R105), with the
host's input stream, whose end is EndOfInput (D10). -/
def State.start (origin : Word) (image : List Word) (input : List Byte) : Option State :=
  (State.reset.withInput input true).load origin image

end Sys2Proof.Machine
end

