-- ==== Sys2Proof/Machine/Step.lean ====
section
/-! DEFINITION. One step of the machine (30_encoding.md R48), and the placing of one instruction where step fetches. -/

namespace Sys2Proof.Machine

/-- One step. It is taken only in RUNNING (30_encoding.md R48): in HALTED and FAULTED there is none, which is a stop of
its own name (log entry 14). While a console read waits, the step is the read again (60_exceptions.md R100, log entry
15). Otherwise the word at PC is fetched, PC incremented, and the instruction executed. -/
def step (s : State) : Host.Outcome State Fault Refusal :=
  match s.run with
  | .halted => .fault .halted
  | .faulted _ => .fault .faulted
  | .running =>
    match s.wait with
    | some ir => .next (s.readToR0 ir)
    | none => exec (decodeWord s.fetchWord) s.afterFetch

/-- The state with one instruction word stored where step fetches next, at PC, RUNNING and not waiting, so that the next
step fetches and runs exactly it. Log entry 24. -/
def State.withFetchWord (s : State) (nbits w : Nat) : State :=
  { s.writeMem s.pc (BitVec.ofNat 16 (w % 2 ^ nbits)) with run := .running, wait := none }

end Sys2Proof.Machine
end

