-- ==== Sys2Proof/Safety.lean ====
section
/-! DEFINITION. The terms claims are stated in: the spec's tables of which instruction writes what (10_state.md R19, R25,
R26, R29, 20_memory.md R38), the invariant of the machine, reachable states and safe runs. -/

namespace Sys2Proof.Machine

/-! ## Which instruction writes what -/

/-- The flag-updating instructions: ADD, AND, NOT, LOAD, LOADI, LOADR and LEA (10_state.md R25). -/
def updatesFlags : Instr → Bool
  | .addRegister _ _ _ _ | .addImmediate _ _ _ | .andRegister _ _ _ _ | .andImmediate _ _ _ | .not _ _ _ => true
  | .load _ _ | .loadi _ _ | .loadr _ _ _ | .lea _ _ => true
  | .branch _ _ | .jump _ _ _ | .jumprJsr _ | .jumprJsrr _ _ _ => false
  | .store _ _ | .storei _ _ | .storer _ _ _ => false
  | .trap _ _ | .res _ | .rti _ => false

/-- The vectors of the services that read the console, GETC and IN (43_trap.md R83, R86). -/
def readsConsole (v : Byte) : Bool := v == 0x20 || v == 0x23

/-- The general-purpose registers an instruction may write (10_state.md R19, with `trapLinksR7` false). -/
def mayWriteReg (i : Instr) (r : Reg) : Bool :=
  match i with
  | .addRegister dr _ _ _ | .addImmediate dr _ _ | .andRegister dr _ _ _ | .andImmediate dr _ _ | .not dr _ _ => r == dr
  | .load dr _ | .loadi dr _ | .loadr dr _ _ | .lea dr _ => r == dr
  | .jumprJsr _ | .jumprJsrr _ _ _ => r == 7
  | .trap _ v => readsConsole v && r == 0
  | .branch _ _ | .jump _ _ _ | .store _ _ | .storei _ _ | .storer _ _ _ | .res _ | .rti _ => false

/-- The instructions that write PC after the fetch: BRANCH, JUMP and JUMPR (10_state.md R26). -/
def transfersControl : Instr → Bool
  | .branch _ _ | .jump _ _ _ | .jumprJsr _ | .jumprJsrr _ _ _ => true
  | .addRegister _ _ _ _ | .addImmediate _ _ _ | .andRegister _ _ _ _ | .andImmediate _ _ _ | .not _ _ _ => false
  | .load _ _ | .loadi _ _ | .loadr _ _ _ | .lea _ _ | .store _ _ | .storei _ _ | .storer _ _ _ => false
  | .trap _ _ | .res _ | .rti _ => false

/-- The address an instruction stores to and the word it stores, in the state it executes in; none where it stores nothing
(20_memory.md R38, 42_load_store.md R78 to R80). -/
def storedWord (i : Instr) (s : State) : Option (Word × Word) :=
  match i with
  | .store sr off => some (s.pcRelative off, s.readReg sr)
  | .storei sr off => some (s.indirect off, s.readReg sr)
  | .storer sr baseR off => some (s.baseOffset baseR off, s.readReg sr)
  | .branch _ _ | .jump _ _ _ | .jumprJsr _ | .jumprJsrr _ _ _ => none
  | .addRegister _ _ _ _ | .addImmediate _ _ _ | .andRegister _ _ _ _ | .andImmediate _ _ _ | .not _ _ _ => none
  | .load _ _ | .loadi _ _ | .loadr _ _ _ | .lea _ _ | .trap _ _ | .res _ | .rti _ => none

/-- The instructions that may append to the console output: TRAP OUT, PUTS, IN, PUTSP and HALT (10_state.md R29). -/
def mayWriteConsole : Instr → Bool
  | .trap _ v => v == 0x21 || v == 0x22 || v == 0x23 || v == 0x24 || v == 0x25
  | .addRegister _ _ _ _ | .addImmediate _ _ _ | .andRegister _ _ _ _ | .andImmediate _ _ _ | .not _ _ _ => false
  | .load _ _ | .loadi _ _ | .loadr _ _ _ | .lea _ _ | .store _ _ | .storei _ _ | .storer _ _ _ => false
  | .branch _ _ | .jump _ _ _ | .jumprJsr _ | .jumprJsrr _ _ _ | .res _ | .rti _ => false

/-- Whether an instruction is TRAP GETC or TRAP IN. -/
def isConsoleRead : Instr → Bool
  | .trap _ v => readsConsole v
  | .addRegister _ _ _ _ | .addImmediate _ _ _ | .andRegister _ _ _ _ | .andImmediate _ _ _ | .not _ _ _ => false
  | .load _ _ | .loadi _ _ | .loadr _ _ _ | .lea _ _ | .store _ _ | .storei _ _ | .storer _ _ _ => false
  | .branch _ _ | .jump _ _ _ | .jumprJsr _ | .jumprJsrr _ _ _ | .res _ | .rti _ => false

/-! ## The invariant -/

/-- COND is one of the four values 10_state.md R24 allows. -/
abbrev legalCond (c : Word) : Prop := c = 0x0000 ∨ c = 0x0001 ∨ c = 0x0002 ∨ c = 0x0004

/-- `ir` is a TRAP word with vector `v`. -/
abbrev isTrapWord (ir : Word) (v : Byte) : Prop := opcodeOf ir = .trap ∧ lowByte ir = v

/-- A fault record tells the truth about the state it stands in (60_exceptions.md R92): the word recorded is the one in
memory just before PC, it is recorded with its address, and it is a cause of that fault. -/
def FaultRecord.truthful (s : State) : FaultRecord → Prop
  | .illegalOpcode ir a =>
    a = s.instrAddr ∧ ir = s.readMem a ∧ (opcodeOf ir = .res ∨ opcodeOf ir = .rti)
  | .undefinedTrap v ir a =>
    a = s.instrAddr ∧ ir = s.readMem a ∧ isTrapWord ir v ∧ (v.toNat < 0x20 ∨ 0x25 < v.toNat)
  | .inputExhausted v ir a =>
    a = s.instrAddr ∧ ir = s.readMem a ∧ isTrapWord ir v ∧ readsConsole v = true ∧ s.consoleAnswer = .endOfInput

/-- The invariant of the machine: memory in canonical form, COND legal (10_state.md R24), no more input consumed than
there is, a wait only in RUNNING and only by the GETC or IN just before PC (60_exceptions.md R100), HALTED only with the
HALT just before PC (10_state.md R28), and a truthful fault record (60_exceptions.md R92). -/
structure State.Inv (s : State) : Prop where
  memory : s.mem.wf
  cond : legalCond s.cond
  consumed : s.inPos ≤ s.input.length
  waiting : ∀ ir, s.wait = some ir →
    s.run = .running ∧ ir = s.readMem s.instrAddr ∧ ∃ v, isTrapWord ir v ∧ readsConsole v = true
  halted : s.run = .halted → isTrapWord (s.readMem s.instrAddr) 0x25
  faulted : ∀ f, s.run = .faulted f → f.truthful s

/-! ## Runs -/

/-- The states some number of steps lead to. -/
inductive Reaches : State → State → Prop where
  | refl (s : State) : Reaches s s
  | next {s t u : State} : Reaches s t → step t = .next u → Reaches s u

/-- The run of `k` steps is safe: no step answers FAULTED, and none hangs in a string. A run that has ended by HALT is safe. -/
def State.safeRun : Nat → State → Bool
  | 0, _ => true
  | k + 1, s =>
    match step s with
    | .next t =>
      match t.run with
      | .running => State.safeRun k t
      | .halted => true
      | .faulted _ => false
    | .fault .halted => true
    | .fault .faulted => false
    | .fault .endlessString => false
    | .refused _ => false

end Sys2Proof.Machine
end

