-- ==== Sys2Proof/Certificates/Slice0/Obligations.lean ====
section
/-! DEFINITION. The statements for the provers, from the numbered rules of spec/. In the statements about one instruction the
first part writes the instruction's word out from the spec's encoding of it, field by field, and says what it decodes
to; the second says what the instruction does in the state after fetch, where PC is already incremented.

The opcode numbers and the bits of COND are the spec's own choice from general knowledge (92_eei_decisions.md D1, D2; log
entries 1, 2). The statements about one instruction name them (`Opcode.add.nibble`, `flZro`) and hold whatever they are;
EveryWordMatchesExactlyOneRow, SpecWordsDecode, CondIsOneHotAfterFlagUpdate and BranchRule say the numbers. -/

namespace Sys2Proof.Claims

open Sys2Proof Sys2Proof.Machine

/-- The value 10_state.md R22 gives COND for a value written. -/
def condOf (v : Word) : Word :=
  if v = 0x0000 then flZro else if v.getLsbD 15 then flNeg else flPos

/-- The state in which `v` has been written to dr and COND set from it, and nothing else has changed. -/
def resultIn (s : State) (dr : Reg) (v : Word) : State :=
  { s with regs := s.regs.set dr.val v, cond := condOf v }

/-- A register number as a 3-bit field. -/
def field (r : Reg) : BitVec 3 := BitVec.ofNat 3 r.val

/-- `m'` is `m` with `v` stored at `a`: the word at `a` reads as `v` and every other word as before. -/
def storedAt (m m' : Memory) (a v : Word) : Prop :=
  m'.read a = v ∧ ∀ b, b ≠ a → m'.read b = m.read b

/-- The state in which a TRAP service runs: the link in R7 where the parameter `trapLinksR7` says so (43_trap.md R82), and
with the spec's value `false`, which is the spec's own choice (D5, log entry 5), `s` itself. -/
def trapLinked (s : State) : State :=
  if Config.trapLinksR7 then { s with regs := s.regs.set 7 s.pc } else s

/-- The address `j` words after `a`, modulo 65536. -/
def wordAfter (a : Word) (j : Nat) : Word := a + BitVec.ofNat 16 j

end Sys2Proof.Claims

open Sys2Proof Sys2Proof.Machine Sys2Proof.Claims

/-! ## Words, flags and decoding -/

/-- 00_scope.md R12: sign and zero extension. -/
def Obligations.SignExtensionCopiesSignBit : Prop :=
  (∀ (n : Nat) (v : BitVec n), 1 ≤ n → n ≤ 16 →
    (v.getLsbD (n - 1) = false → (sext v).toNat = v.toNat) ∧
    (v.getLsbD (n - 1) = true → sext v = BitVec.ofNat 16 v.toNat ||| (0xFFFF#16 <<< n))) ∧
  ∀ b : Byte, (zext b).extractLsb' 0 8 = b ∧ (zext b).extractLsb' 8 8 = 0#8

/-- 10_state.md R22: the flag-update step, and that it sees the value as stored in the register. -/
def Obligations.FlagUpdateClassifiesStoredValue : Prop :=
  (∀ (s : State) (v : Word), s.setcc v = { s with cond := condOf v }) ∧
  ∀ (s : State) (dr : Reg) (v : Word),
    (s.writeResult dr v).cond = condOf ((s.writeResult dr v).readReg dr)

/-- 30_encoding.md R54, R55: the rows of spec/opcode_table.json as (match, mask), with the constructor of each. Every word
matches exactly one row, and decodes to that row's constructor. The opcode numbers are the spec's own choice (D1, log entry 1). -/
def Obligations.EveryWordMatchesExactlyOneRow : Prop :=
  ∀ w : Word,
    (w &&& 0xF000 = 0x0000 ↔ ∃ c o, decodeWord w = .branch c o) ∧
    (w &&& 0xF020 = 0x1000 ↔ ∃ d a u b, decodeWord w = .addRegister d a u b) ∧
    (w &&& 0xF020 = 0x1020 ↔ ∃ d a i, decodeWord w = .addImmediate d a i) ∧
    (w &&& 0xF000 = 0x2000 ↔ ∃ d o, decodeWord w = .load d o) ∧
    (w &&& 0xF000 = 0x3000 ↔ ∃ r o, decodeWord w = .store r o) ∧
    (w &&& 0xF800 = 0x4800 ↔ ∃ o, decodeWord w = .jumprJsr o) ∧
    (w &&& 0xF800 = 0x4000 ↔ ∃ h b l, decodeWord w = .jumprJsrr h b l) ∧
    (w &&& 0xF020 = 0x5000 ↔ ∃ d a u b, decodeWord w = .andRegister d a u b) ∧
    (w &&& 0xF020 = 0x5020 ↔ ∃ d a i, decodeWord w = .andImmediate d a i) ∧
    (w &&& 0xF000 = 0x6000 ↔ ∃ d b o, decodeWord w = .loadr d b o) ∧
    (w &&& 0xF000 = 0x7000 ↔ ∃ r b o, decodeWord w = .storer r b o) ∧
    (w &&& 0xF000 = 0x8000 ↔ ∃ x, decodeWord w = .rti x) ∧
    (w &&& 0xF000 = 0x9000 ↔ ∃ d r u, decodeWord w = .not d r u) ∧
    (w &&& 0xF000 = 0xA000 ↔ ∃ d o, decodeWord w = .loadi d o) ∧
    (w &&& 0xF000 = 0xB000 ↔ ∃ r o, decodeWord w = .storei r o) ∧
    (w &&& 0xF000 = 0xC000 ↔ ∃ h b l, decodeWord w = .jump h b l) ∧
    (w &&& 0xF000 = 0xD000 ↔ ∃ x, decodeWord w = .res x) ∧
    (w &&& 0xF000 = 0xE000 ↔ ∃ d o, decodeWord w = .lea d o) ∧
    (w &&& 0xF000 = 0xF000 ↔ ∃ u v, decodeWord w = .trap u v)

/-- Decoding the word of a well-formed instruction gives the instruction back, every operand at every value. -/
def Obligations.DecodeOfEncodeIsIdentity : Prop :=
  ∀ i : Instr, wellFormed i = true → decodeWord (encode i) = i

/-- Every one of the 65536 words decodes to a well-formed instruction whose word it is: no bit of a word is dropped. -/
def Obligations.EncodeOfDecodeIsIdentity : Prop :=
  ∀ w : Word, wellFormed (decodeWord w) = true ∧ encode (decodeWord w) = w

/-- Words of 95_test_vectors.md, one of each format, decode to what that file says they are. They rest on the spec's own
choice of opcode numbers and field positions (D1, D3, log entries 1, 3). -/
def Obligations.SpecWordsDecode : Prop :=
  decodeWord 0x1642 = .addRegister 3 1 0 2 ∧ decodeWord 0x14B0 = .addImmediate 2 2 (-16) ∧
  decodeWord 0x92BF = .not 1 2 0x3F ∧ decodeWord 0x0BFE = .branch 0b101 (-2) ∧
  decodeWord 0xC1C0 = .jump 0 7 0 ∧ decodeWord 0x4C00 = .jumprJsr (-1024) ∧
  decodeWord 0x4640 = .jumprJsrr 3 1 0 ∧ decodeWord 0x2001 = .load 0 1 ∧
  decodeWord 0x6720 = .loadr 3 4 (-32) ∧ decodeWord 0x7381 = .storer 1 6 1 ∧
  decodeWord 0xF120 = .trap 1 0x20 ∧ decodeWord 0xD000 = .res 0 ∧ decodeWord 0x8FFF = .rti 0xFFF

/-! ## Operate instructions -/

/-- 40_operate.md R62. The position of sr2 is the spec's own choice (D3, log entry 3). -/
def Obligations.AddRegisterRule : Prop :=
  (∀ (dr sr1 : Reg) (xx : BitVec 2) (sr2 : Reg),
    decodeWord (Opcode.add.nibble ++ field dr ++ field sr1 ++ 0b0#1 ++ xx ++ field sr2) = .addRegister dr sr1 xx sr2) ∧
  ∀ (dr sr1 : Reg) (xx : BitVec 2) (sr2 : Reg) (s : State),
    exec (.addRegister dr sr1 xx sr2) s = .next (resultIn s dr (s.readReg sr1 + s.readReg sr2))

/-- 40_operate.md R63. -/
def Obligations.AddImmediateRule : Prop :=
  (∀ (dr sr1 : Reg) (imm5 : BitVec 5),
    decodeWord (Opcode.add.nibble ++ field dr ++ field sr1 ++ 0b1#1 ++ imm5) = .addImmediate dr sr1 (imm5.signExtend 16)) ∧
  ∀ (dr sr1 : Reg) (imm : Word) (s : State),
    exec (.addImmediate dr sr1 imm) s = .next (resultIn s dr (s.readReg sr1 + imm))

/-- 40_operate.md R64. The position of sr2 is the spec's own choice (D3, log entry 3). -/
def Obligations.AndRegisterRule : Prop :=
  (∀ (dr sr1 : Reg) (xx : BitVec 2) (sr2 : Reg),
    decodeWord (Opcode.and.nibble ++ field dr ++ field sr1 ++ 0b0#1 ++ xx ++ field sr2) = .andRegister dr sr1 xx sr2) ∧
  ∀ (dr sr1 : Reg) (xx : BitVec 2) (sr2 : Reg) (s : State),
    exec (.andRegister dr sr1 xx sr2) s = .next (resultIn s dr (s.readReg sr1 &&& s.readReg sr2))

/-- 40_operate.md R65. -/
def Obligations.AndImmediateRule : Prop :=
  (∀ (dr sr1 : Reg) (imm5 : BitVec 5),
    decodeWord (Opcode.and.nibble ++ field dr ++ field sr1 ++ 0b1#1 ++ imm5) = .andImmediate dr sr1 (imm5.signExtend 16)) ∧
  ∀ (dr sr1 : Reg) (imm : Word) (s : State),
    exec (.andImmediate dr sr1 imm) s = .next (resultIn s dr (s.readReg sr1 &&& imm))

/-- 40_operate.md R66. -/
def Obligations.NotRule : Prop :=
  (∀ (dr sr : Reg) (x : BitVec 6), decodeWord (Opcode.not.nibble ++ field dr ++ field sr ++ x) = .not dr sr x) ∧
  ∀ (dr sr : Reg) (x : BitVec 6) (s : State),
    exec (.not dr sr x) s = .next (resultIn s dr (~~~ s.readReg sr))

/-- 40_operate.md R61: NOT followed by ADD #1 negates a register, also where source and destination are one. -/
def Obligations.NotThenAddOneNegates : Prop :=
  ∀ (dr sr : Reg) (x : BitVec 6) (s : State), ∃ t u : State,
    exec (.not dr sr x) s = .next t ∧ exec (.addImmediate dr dr 1) t = .next u ∧ u.readReg dr = 0 - s.readReg sr

/-! ## Control transfer -/

/-- 41_control.md R68. The order n, z, p of the mask's bits is the spec's own choice, with the bits of COND (D2, log entry 2).
The last part is the pairing of 10_state.md R23: after a flag update the branch is taken where n meets a NEGATIVE value, z a
ZERO or p a POSITIVE one. -/
def Obligations.BranchRule : Prop :=
  (∀ (n z p : Bool) (off : BitVec 9),
    decodeWord (Opcode.branch.nibble ++ BitVec.ofBool n ++ BitVec.ofBool z ++ BitVec.ofBool p ++ off) =
      .branch (BitVec.ofBool n ++ BitVec.ofBool z ++ BitVec.ofBool p) (off.signExtend 16)) ∧
  (∀ (cond : BitVec 3) (off : Word) (s : State),
    exec (.branch cond off) s =
      .next (if BitVec.setWidth 16 cond &&& s.cond ≠ 0 then { s with pc := s.pc + off } else s)) ∧
  ∀ (n z p : Bool) (off v : Word) (s : State),
    exec (.branch (BitVec.ofBool n ++ BitVec.ofBool z ++ BitVec.ofBool p) off) (s.setcc v) =
      .next (if (if v = 0 then z else if v.getLsbD 15 then n else p) = true
        then { s.setcc v with pc := s.pc + off } else s.setcc v)

/-- 41_control.md R69. -/
def Obligations.JumpRule : Prop :=
  (∀ (x : BitVec 3) (baseR : Reg) (y : BitVec 6),
    decodeWord (Opcode.jump.nibble ++ x ++ field baseR ++ y) = .jump x baseR y) ∧
  ∀ (x : BitVec 3) (baseR : Reg) (y : BitVec 6) (s : State),
    exec (.jump x baseR y) s = .next { s with pc := s.readReg baseR }

/-- 41_control.md R70. -/
def Obligations.JsrRule : Prop :=
  (∀ off : BitVec 11, decodeWord (Opcode.jumpr.nibble ++ 0b1#1 ++ off) = .jumprJsr (off.signExtend 16)) ∧
  ∀ (off : Word) (s : State),
    exec (.jumprJsr off) s = .next { s with regs := s.regs.set 7 s.pc, pc := s.pc + off }

/-- 41_control.md R71: the link is written before the base is read, so that JSRR R7 goes to the next instruction. The order
is the source's, taken by the spec's own choice (D15, log entry 16), and so is the position of baseR (D3, log entry 3). -/
def Obligations.JsrrRule : Prop :=
  (∀ (x : BitVec 2) (baseR : Reg) (y : BitVec 6),
    decodeWord (Opcode.jumpr.nibble ++ 0b0#1 ++ x ++ field baseR ++ y) = .jumprJsrr x baseR y) ∧
  ∀ (x : BitVec 2) (baseR : Reg) (y : BitVec 6) (s : State),
    exec (.jumprJsrr x baseR y) s =
      .next { s with regs := s.regs.set 7 s.pc, pc := if baseR = 7 then s.pc else s.readReg baseR }

/-- 41_control.md R72: a JUMP by R7 returns to the instruction after the call, from any state in which R7 still holds the link. -/
def Obligations.JumpByR7ReturnsAfterCall : Prop :=
  ∀ (call : Instr) (s t : State),
    ((∃ off, call = .jumprJsr off) ∨ ∃ x b y, call = .jumprJsrr x b y) →
    exec call s = .next t → ∀ (x : BitVec 3) (y : BitVec 6) (u : State), u.readReg 7 = t.readReg 7 →
      exec (.jump x 7 y) u = .next { u with pc := s.pc }

/-- 30_encoding.md R58: the forms that act as no-ops, and the word 0x0000 among them. -/
def Obligations.BranchWithEmptyMaskIsNoOp : Prop :=
  (∀ (off : Word) (s : State), exec (.branch 0 off) s = .next s) ∧
  ∀ s : State, s.run = .running → s.wait = none → s.readMem s.pc = 0x0000 →
    step s = .next { s with pc := s.pc + 1 }

/-- 10_state.md R31: COND is zero when the loop starts and stays zero until a flag-updating instruction, and while it is, no
BRANCH is taken, whatever its mask. -/
def Obligations.NoBranchTakenBeforeFirstFlagUpdate : Prop :=
  (∀ (origin : Word) (image : List Word) (input : List Byte) (s : State),
    State.start origin image input = some s → s.cond = 0x0000) ∧
  (∀ s t : State, step s = .next t → s.cond = 0x0000 →
    (s.wait = none → updatesFlags (decodeWord (s.readMem s.pc)) = false) → t.cond = 0x0000) ∧
  ∀ (cond : BitVec 3) (off : Word) (s : State), s.cond = 0x0000 → exec (.branch cond off) s = .next s

/-! ## Loads and stores -/

/-- 42_load_store.md R74. -/
def Obligations.LoadRule : Prop :=
  (∀ (dr : Reg) (off : BitVec 9), decodeWord (Opcode.load.nibble ++ field dr ++ off) = .load dr (off.signExtend 16)) ∧
  ∀ (dr : Reg) (off : Word) (s : State),
    exec (.load dr off) s = .next (resultIn s dr (s.readMem (s.pc + off)))

/-- 42_load_store.md R75. -/
def Obligations.LoadIndirectRule : Prop :=
  (∀ (dr : Reg) (off : BitVec 9), decodeWord (Opcode.loadi.nibble ++ field dr ++ off) = .loadi dr (off.signExtend 16)) ∧
  ∀ (dr : Reg) (off : Word) (s : State),
    exec (.loadi dr off) s = .next (resultIn s dr (s.readMem (s.readMem (s.pc + off))))

/-- 42_load_store.md R76. -/
def Obligations.LoadBaseRule : Prop :=
  (∀ (dr baseR : Reg) (off : BitVec 6),
    decodeWord (Opcode.loadr.nibble ++ field dr ++ field baseR ++ off) = .loadr dr baseR (off.signExtend 16)) ∧
  ∀ (dr baseR : Reg) (off : Word) (s : State),
    exec (.loadr dr baseR off) s = .next (resultIn s dr (s.readMem (s.readReg baseR + off)))

/-- 42_load_store.md R77. -/
def Obligations.LeaRule : Prop :=
  (∀ (dr : Reg) (off : BitVec 9), decodeWord (Opcode.lea.nibble ++ field dr ++ off) = .lea dr (off.signExtend 16)) ∧
  ∀ (dr : Reg) (off : Word) (s : State), exec (.lea dr off) s = .next (resultIn s dr (s.pc + off))

/-- 42_load_store.md R78. The premise is the canonical form of memory, which StepKeepsInvariant keeps. -/
def Obligations.StoreRule : Prop :=
  (∀ (sr : Reg) (off : BitVec 9), decodeWord (Opcode.store.nibble ++ field sr ++ off) = .store sr (off.signExtend 16)) ∧
  ∀ (sr : Reg) (off : Word) (s : State), s.mem.wf →
    ∃ m, exec (.store sr off) s = .next { s with mem := m } ∧ storedAt s.mem m (s.pc + off) (s.readReg sr)

/-- 42_load_store.md R79. The premise is the canonical form of memory. -/
def Obligations.StoreIndirectRule : Prop :=
  (∀ (sr : Reg) (off : BitVec 9), decodeWord (Opcode.storei.nibble ++ field sr ++ off) = .storei sr (off.signExtend 16)) ∧
  ∀ (sr : Reg) (off : Word) (s : State), s.mem.wf →
    ∃ m, exec (.storei sr off) s = .next { s with mem := m } ∧
      storedAt s.mem m (s.readMem (s.pc + off)) (s.readReg sr)

/-- 42_load_store.md R80. The premise is the canonical form of memory. -/
def Obligations.StoreBaseRule : Prop :=
  (∀ (sr baseR : Reg) (off : BitVec 6),
    decodeWord (Opcode.storer.nibble ++ field sr ++ field baseR ++ off) = .storer sr baseR (off.signExtend 16)) ∧
  ∀ (sr baseR : Reg) (off : Word) (s : State), s.mem.wf →
    ∃ m, exec (.storer sr baseR off) s = .next { s with mem := m } ∧
      storedAt s.mem m (s.readReg baseR + off) (s.readReg sr)

/-! ## TRAP and the illegal opcodes -/

/-- 43_trap.md R83: GETC on a byte, at the end of the input, and while the host gives no answer. That it then answers a next
state in which nothing but `wait` has changed is the model's choice (log entry 15): the spec says that the core waits
(60_exceptions.md R100), and ConsoleReadWaitsForTheAnswer says how the wait ends. What else the fault records is in FaultKindsAndRecords. -/
def Obligations.GetcRule : Prop :=
  (∀ xxxx : BitVec 4, decodeWord (Opcode.trap.nibble ++ xxxx ++ 0x20#8) = .trap xxxx 0x20) ∧
  ∀ (x : BitVec 4) (s : State),
    (∀ b, s.consoleAnswer = .byte b →
      exec (.trap x 0x20) s =
        .next { trapLinked s with
          regs := (trapLinked s).regs.set 0 (b.setWidth 16), inPos := s.inPos + 1, wait := none }) ∧
    (s.consoleAnswer = .endOfInput → ∃ ir a,
      exec (.trap x 0x20) s = .next { trapLinked s with run := .faulted (.inputExhausted 0x20 ir a), wait := none }) ∧
    (s.consoleAnswer = .noAnswer → ∃ ir, exec (.trap x 0x20) s = .next { trapLinked s with wait := some ir })

/-- 43_trap.md R84. -/
def Obligations.OutRule : Prop :=
  (∀ xxxx : BitVec 4, decodeWord (Opcode.trap.nibble ++ xxxx ++ 0x21#8) = .trap xxxx 0x21) ∧
  ∀ (x : BitVec 4) (s : State),
    exec (.trap x 0x21) s = .next { trapLinked s with out := s.out ++ [(s.readReg 0).extractLsb' 0 8] }

/-- 43_trap.md R85: PUTS sends the low byte of every word from R0 on, up to the first zero word, and without a zero word in
memory it never ends (the spec's own choice, D11), for which the model has no next state but a stop (log entry 12). -/
def Obligations.PutsRule : Prop :=
  (∀ xxxx : BitVec 4, decodeWord (Opcode.trap.nibble ++ xxxx ++ 0x22#8) = .trap xxxx 0x22) ∧
  (∀ (x : BitVec 4) (s : State) (k : Nat),
    (∀ j < k, s.readMem (wordAfter (s.readReg 0) j) ≠ 0) → s.readMem (wordAfter (s.readReg 0) k) = 0 →
    exec (.trap x 0x22) s =
      .next { trapLinked s with
        out := s.out ++
          (List.range k).map fun j => (s.readMem (wordAfter (s.readReg 0) j)).extractLsb' 0 8 }) ∧
  ∀ (x : BitVec 4) (s : State), (∀ a, s.readMem a ≠ 0) → exec (.trap x 0x22) s = .fault .endlessString

/-- 43_trap.md R86: IN writes the prompt and then reads as GETC does, without an echo: on a byte, at the end of the input, and
while the host gives no answer. That it then answers a next state in which nothing but the output and `wait` has changed is
the model's choice (log entry 15): the spec says that the core waits (60_exceptions.md R100), and
ConsoleReadWaitsForTheAnswer says how the wait ends. -/
def Obligations.InRule : Prop :=
  (∀ xxxx : BitVec 4, decodeWord (Opcode.trap.nibble ++ xxxx ++ 0x23#8) = .trap xxxx 0x23) ∧
  ∀ (x : BitVec 4) (s : State),
    (∀ b, s.consoleAnswer = .byte b →
      exec (.trap x 0x23) s =
        .next { trapLinked s with
          out := s.out ++ Config.inPrompt, regs := (trapLinked s).regs.set 0 (b.setWidth 16),
          inPos := s.inPos + 1, wait := none }) ∧
    (s.consoleAnswer = .endOfInput → ∃ ir a,
      exec (.trap x 0x23) s =
        .next { trapLinked s with
          out := s.out ++ Config.inPrompt, run := .faulted (.inputExhausted 0x23 ir a), wait := none }) ∧
    (s.consoleAnswer = .noAnswer → ∃ ir,
      exec (.trap x 0x23) s = .next { trapLinked s with out := s.out ++ Config.inPrompt, wait := some ir })

/-- 43_trap.md R87: PUTSP sends of every word the low byte and then the high byte unless it is zero; without a zero word it
does as PUTS (D11, log entry 12). -/
def Obligations.PutspRule : Prop :=
  (∀ xxxx : BitVec 4, decodeWord (Opcode.trap.nibble ++ xxxx ++ 0x24#8) = .trap xxxx 0x24) ∧
  (∀ (x : BitVec 4) (s : State) (k : Nat),
    (∀ j < k, s.readMem (wordAfter (s.readReg 0) j) ≠ 0) → s.readMem (wordAfter (s.readReg 0) k) = 0 →
    exec (.trap x 0x24) s =
      .next { trapLinked s with
        out := s.out ++ (List.range k).flatMap fun j =>
          let w := s.readMem (wordAfter (s.readReg 0) j)
          if w.extractLsb' 8 8 = 0#8 then [w.extractLsb' 0 8] else [w.extractLsb' 0 8, w.extractLsb' 8 8] }) ∧
  ∀ (x : BitVec 4) (s : State), (∀ a, s.readMem a ≠ 0) → exec (.trap x 0x24) s = .fault .endlessString

/-- 43_trap.md R88: HALT writes the notice and halts, and no step follows. -/
def Obligations.HaltRule : Prop :=
  (∀ xxxx : BitVec 4, decodeWord (Opcode.trap.nibble ++ xxxx ++ 0x25#8) = .trap xxxx 0x25) ∧
  ∀ (x : BitVec 4) (s : State),
    exec (.trap x 0x25) s = .next { trapLinked s with out := s.out ++ Config.haltNotice, run := .halted } ∧
    ∀ t u : State, exec (.trap x 0x25) s = .next t → step t ≠ .next u

/-- 43_trap.md R89. The record's third entry is the word's address (FaultKindsAndRecords). -/
def Obligations.UndefinedTrapRule : Prop :=
  ∀ v : Byte, (v.toNat < 0x20 ∨ 0x25 < v.toNat) →
    (∀ xxxx : BitVec 4, decodeWord (Opcode.trap.nibble ++ xxxx ++ v) = .trap xxxx v) ∧
    ∀ (x : BitVec 4) (s : State), ∃ a,
      exec (.trap x v) s =
        .next { trapLinked s with run := .faulted (.undefinedTrap v (Opcode.trap.nibble ++ x ++ v) a) }

/-- 43_trap.md R82: whether TRAP writes R7 is the parameter trapLinksR7; with the spec's value false, which is the spec's own
choice (D5, log entry 5), it leaves R7 as it is. With the other value a TRAP writes the link, and then does what it does here
in a state with the link in R7. -/
def Obligations.TrapWritesR7OnlyWhereTheParameterSaysSo : Prop :=
  (∀ (x : BitVec 4) (v : Byte) (s t : State), exec (.trap x v) s = .next t → t.readReg 7 = s.readReg 7) ∧
  (∀ (x : BitVec 4) (v : Byte) (s t : State), trapWithLink true x v s = .next t → t.readReg 7 = s.pc) ∧
  ∀ (x : BitVec 4) (v : Byte) (s : State),
    trapWithLink true x v s = exec (.trap x v) { s with regs := s.regs.set 7 s.pc }

/-- 44_reserved.md R90. The record's second entry is the word's address (FaultKindsAndRecords). -/
def Obligations.ResRule : Prop :=
  (∀ x : BitVec 12, decodeWord (Opcode.res.nibble ++ x) = .res x) ∧
  ∀ (x : BitVec 12) (s : State), ∃ a,
    exec (.res x) s = .next { s with run := .faulted (.illegalOpcode (Opcode.res.nibble ++ x) a) }

/-- 44_reserved.md R91. The record's second entry is the word's address (FaultKindsAndRecords). -/
def Obligations.RtiRule : Prop :=
  (∀ x : BitVec 12, decodeWord (Opcode.rti.nibble ++ x) = .rti x) ∧
  ∀ (x : BitVec 12) (s : State), ∃ a,
    exec (.rti x) s = .next { s with run := .faulted (.illegalOpcode (Opcode.rti.nibble ++ x) a) }

/-- 30_encoding.md R56: an instruction does what it does with its unused bits zero; the spec's own choice (D4, log entry 4). Of
a TRAP this is stated where no fault and no wait records the whole word: the record holds the word as it is (60_exceptions.md
R92, D12, log entry 13), and so does the wait, which is the model's choice (log entry 15). -/
def Obligations.UnusedBitsAreIgnored : Prop :=
  (∀ (d a b : Reg) (x : BitVec 2) (s : State), exec (.addRegister d a x b) s = exec (.addRegister d a 0 b) s) ∧
  (∀ (d a b : Reg) (x : BitVec 2) (s : State), exec (.andRegister d a x b) s = exec (.andRegister d a 0 b) s) ∧
  (∀ (d a : Reg) (x : BitVec 6) (s : State), exec (.not d a x) s = exec (.not d a 0) s) ∧
  (∀ (b : Reg) (x : BitVec 3) (y : BitVec 6) (s : State), exec (.jump x b y) s = exec (.jump 0 b 0) s) ∧
  (∀ (b : Reg) (x : BitVec 2) (y : BitVec 6) (s : State), exec (.jumprJsrr x b y) s = exec (.jumprJsrr 0 b 0) s) ∧
  ∀ (x : BitVec 4) (v : Byte) (s t : State), exec (.trap 0 v) s = .next t → t.wait = none →
    (∀ f, t.run ≠ .faulted f) → exec (.trap x v) s = .next t

/-! ## The whole machine: what changes what -/

/-- 10_state.md R19: which instructions write which general-purpose register. That TRAP writes no R7 is the spec's own choice
trapLinksR7 = false (43_trap.md R82, D5, log entry 5). -/
def Obligations.OnlyListedInstructionsWriteRegisters : Prop :=
  ∀ (i : Instr) (s t : State) (r : Reg), exec i s = .next t → mayWriteReg i r = false → t.readReg r = s.readReg r

/-- 10_state.md R25: COND is written by the flag-updating instructions alone, by the flag-update step on the register they
write, and read by BRANCH alone. -/
def Obligations.OnlyFlagInstructionsTouchCond : Prop :=
  (∀ (i : Instr) (s t : State), exec i s = .next t → updatesFlags i = true →
    ∃ dr, mayWriteReg i dr = true ∧ t.cond = condOf (t.readReg dr)) ∧
  (∀ (i : Instr) (s t : State), exec i s = .next t → updatesFlags i = false → t.cond = s.cond) ∧
  ∀ (i : Instr) (s t : State) (c : Word), (∀ m o, i ≠ .branch m o) → exec i s = .next t →
    exec i { s with cond := c } = .next { t with cond := if updatesFlags i then t.cond else c }

/-- 10_state.md R22 to R24: the bit of each class, one bit after a flag-updating instruction, and in every step the four legal
values, 0x0000 only before the first flag update. The bit values are the spec's own choice (R23, D2, log entry 2). -/
def Obligations.CondIsOneHotAfterFlagUpdate : Prop :=
  State.reset.cond = 0x0000 ∧
  (∀ (s : State) (v : Word),
    (s.setcc v).cond = if v = 0x0000 then 0x0002 else if v.getLsbD 15 then 0x0004 else 0x0001) ∧
  (∀ (i : Instr) (s t : State), exec i s = .next t → updatesFlags i = true →
    t.cond = 0x0001 ∨ t.cond = 0x0002 ∨ t.cond = 0x0004) ∧
  ∀ s t : State, step s = .next t →
    (t.cond = s.cond ∨ t.cond = 0x0001 ∨ t.cond = 0x0002 ∨ t.cond = 0x0004) ∧
    (legalCond s.cond → legalCond t.cond) ∧ (s.cond ≠ 0x0000 → t.cond ≠ 0x0000)

/-- 20_memory.md R38: STORE, STOREI and STORER write one word, at the address they compute, and no other instruction writes
memory. The premise is the canonical form of memory. -/
def Obligations.OnlyStoresWriteMemory : Prop :=
  ∀ (i : Instr) (s t : State), s.mem.wf → exec i s = .next t →
    (storedWord i s = none → ∀ a, t.readMem a = s.readMem a) ∧
    ∀ a v, storedWord i s = some (a, v) → t.readMem a = v ∧ ∀ b, b ≠ a → t.readMem b = s.readMem b

/-- 10_state.md R21: PC after a step is the next word's address, modulo 65536, unless the instruction transfers control. -/
def Obligations.OnlyControlTransfersWritePc : Prop :=
  (∀ (i : Instr) (s t : State), exec i s = .next t → transfersControl i = false → t.pc = s.pc) ∧
  ∀ s t : State, step s = .next t → s.wait = none → transfersControl (decodeWord (s.readMem s.pc)) = false →
    t.pc = s.pc + 1

/-- 10_state.md R29: the console streams: who advances the input position and who appends to the output. The console model is
the spec's own choice (D10, log entry 11), the wait and how State holds the input the model's (log entries 15, 22). -/
def Obligations.OnlyConsoleServicesMoveStreams : Prop :=
  ∀ (i : Instr) (s t : State), exec i s = .next t →
    t.input = s.input ∧ t.inputEnded = s.inputEnded ∧ (∃ o, t.out = s.out ++ o) ∧
    (mayWriteConsole i = false → t.out = s.out) ∧
    (isConsoleRead i = false → t.inPos = s.inPos ∧ t.wait = s.wait) ∧
    (isConsoleRead i = true → ∀ b, s.consoleAnswer = .byte b → t.inPos = s.inPos + 1) ∧
    (isConsoleRead i = true → (∀ b, s.consoleAnswer ≠ .byte b) → t.inPos = s.inPos)

/-- 10_state.md R29: nothing reads the output: the same step is taken whatever has been written before. The console model is
the spec's own choice (D10, log entry 11). -/
def Obligations.OutputIsNeverRead : Prop :=
  ∀ (s t : State) (o : List Byte), step s = .next t →
    step { s with out := o } = .next { t with out := o ++ t.out.drop s.out.length }

/-- 10_state.md R28: the run state: HALTED comes from TRAP HALT alone, FAULTED from the four causes alone, and no step
leaves either. The state FAULTED is the spec's own choice (D7, log entry 8), the outcome of a step there the model's (log entry 14). -/
def Obligations.RunStateTransitions : Prop :=
  (∀ s : State, s.run = .halted → step s = .fault .halted) ∧
  (∀ (s : State) (f : FaultRecord), s.run = .faulted f → step s = .fault .faulted) ∧
  (∀ (i : Instr) (s t : State), exec i s = .next t → s.run = .running →
    (t.run = .halted ↔ ∃ x, i = .trap x 0x25) ∧
    ((∃ f, t.run = .faulted f) ↔
      (∃ x, i = .res x) ∨ (∃ x, i = .rti x) ∨ (∃ x v, i = .trap x v ∧ (v.toNat < 0x20 ∨ 0x25 < v.toNat)) ∨
        (isConsoleRead i = true ∧ s.consoleAnswer = .endOfInput))) ∧
  ∀ s t : State, step s = .next t →
    s.run = .running ∧ (t.run = .halted → s.wait = none ∧ ∃ x, decodeWord (s.readMem s.pc) = .trap x 0x25)

/-- 60_exceptions.md R92: the three kinds of fault, their numbers and what each records, which are the spec's own choice (D12,
log entry 13): the last part says of a step that the record names the word executed and its address. -/
def Obligations.FaultKindsAndRecords : Prop :=
  (∀ ir a, (FaultRecord.illegalOpcode ir a).code = 1) ∧ (∀ v ir a, (FaultRecord.undefinedTrap v ir a).code = 2) ∧
  (∀ v ir a, (FaultRecord.inputExhausted v ir a).code = 3) ∧
  (∀ (i : Instr) (s t : State) (f : FaultRecord), exec i s = .next t → s.run = .running → t.run = .faulted f →
    (f = .illegalOpcode (encode i) (s.pc - 1) ∧ ((∃ x, i = .res x) ∨ ∃ x, i = .rti x)) ∨
    (∃ x v, i = .trap x v ∧ (v.toNat < 0x20 ∨ 0x25 < v.toNat) ∧ f = .undefinedTrap v (encode i) (s.pc - 1)) ∨
    ∃ x v, i = .trap x v ∧ (v = 0x20 ∨ v = 0x23) ∧ s.consoleAnswer = .endOfInput ∧
      f = .inputExhausted v (encode i) (s.pc - 1)) ∧
  ∀ (s t : State) (f : FaultRecord), s.wait = none → step s = .next t → t.run = .faulted f →
    f.ir = s.readMem s.pc ∧ f.addr = s.pc

/-- 60_exceptions.md R93: what a fault leaves: PC's fetch increment and, of TRAP IN, the prompt are all that the faulting
instruction did; and no step follows. That a read that has waited did both in the step that began it, so that the faulting
step itself leaves PC and the output, is the model's choice (log entry 15). That a faulting TRAP leaves R7 rests on the spec's
own choice trapLinksR7 = false (43_trap.md R82, D5, log entry 5). -/
def Obligations.FaultsArePrecise : Prop :=
  ∀ (s t : State) (f : FaultRecord), step s = .next t → t.run = .faulted f →
    (∀ u, step t ≠ .next u) ∧ t.regs = s.regs ∧ t.cond = s.cond ∧ t.mem = s.mem ∧ t.inPos = s.inPos ∧
    (s.wait = none → t.pc = s.pc + 1 ∧
      (∀ x, decodeWord (s.readMem s.pc) = .trap x 0x23 → t.out = s.out ++ Config.inPrompt) ∧
      ((∀ x, decodeWord (s.readMem s.pc) ≠ .trap x 0x23) → t.out = s.out)) ∧
    (s.wait ≠ none → t.pc = s.pc ∧ t.out = s.out)

/-- 60_exceptions.md R92, 20_memory.md R35: an instruction has a next state wherever memory has a zero word; the only stop of any
meaning is the endless string of PUTS and PUTSP, and only where no word is zero (the spec's own choice, D11, log entry 12).
That GETC and IN have a next state too while the host gives no answer, one in which they wait and have not completed, is the
model's choice (log entry 15): 60_exceptions.md R100 says that the core waits. -/
def Obligations.EveryInstructionCompletes : Prop :=
  (∀ (i : Instr) (s : State), (∃ a, s.readMem a = 0) → ∃ t, exec i s = .next t) ∧
  ∀ (i : Instr) (s : State), (∃ t, exec i s = .next t) ∨
    (exec i s = .fault .endlessString ∧ (∀ a, s.readMem a ≠ 0) ∧ ∃ x v, i = .trap x v ∧ (v = 0x22 ∨ v = 0x24))

/-! ## The step, the wait, memory and the loader -/

/-- 30_encoding.md R48: a step executes the instruction decoded from the word at PC, with PC incremented before, is taken only in
RUNNING, and leaves RUNNING, or HALTED by TRAP HALT, or FAULTED. What a step does while a console read waits is in
ConsoleReadWaitsForTheAnswer. -/
def Obligations.StepExecutesDecodedWord : Prop :=
  (∀ s : State, s.run = .running → s.wait = none →
    step s = exec (decodeWord (s.readMem s.pc)) { s with pc := s.pc + 1 }) ∧
  (∀ s t : State, s.run ≠ .running → step s ≠ .next t) ∧
  ∀ s t : State, step s = .next t →
    t.run = .running ∨ (t.run = .halted ∧ ∃ x, decodeWord (s.readMem s.pc) = .trap x 0x25) ∨ ∃ f, t.run = .faulted f

/-- 00_scope.md R15, 10_state.md R29: what ConsoleRead answers: the byte at the input position, and after the last byte
EndOfInput or no answer, as the host does; a byte consumed moves the position to the next. That the input is a list taken in
order is the spec's own choice (D10, log entry 11), that a host without a further answer is `inputEnded` false the model's
(log entry 22). -/
def Obligations.ConsoleReadAnswersTheNextInputByte : Prop :=
  (∀ (s : State) (b : Byte), s.consoleAnswer = .byte b ↔ s.input[s.inPos]? = some b) ∧
  (∀ s : State, s.consoleAnswer = .endOfInput ↔ s.input.length ≤ s.inPos ∧ s.inputEnded = true) ∧
  ∀ s : State, s.consoleAnswer = .noAnswer ↔ s.input.length ≤ s.inPos ∧ s.inputEnded = false

/-- 60_exceptions.md R100: without an answer GETC and IN wait, while the core waits no state changes, and the answer ends the
wait. That the wait is held as the TRAP word in State is the model's choice (log entry 15). That the TRAP leaves R7 as it
enters the wait rests on the spec's own choice trapLinksR7 = false (43_trap.md R82, D5, log entry 5). -/
def Obligations.ConsoleReadWaitsForTheAnswer : Prop :=
  (∀ (x : BitVec 4) (s : State), s.consoleAnswer = .noAnswer →
    exec (.trap x 0x20) s = .next { s with wait := some (Opcode.trap.nibble ++ x ++ 0x20#8) } ∧
    exec (.trap x 0x23) s =
      .next { s with out := s.out ++ Config.inPrompt, wait := some (Opcode.trap.nibble ++ x ++ 0x23#8) }) ∧
  ∀ (s : State) (ir : Word), s.run = .running → s.wait = some ir →
    (s.consoleAnswer = .noAnswer → step s = .next s) ∧
    (∀ b, s.consoleAnswer = .byte b →
      step s = .next { s with regs := s.regs.set 0 (b.setWidth 16), inPos := s.inPos + 1, wait := none }) ∧
    (s.consoleAnswer = .endOfInput →
      step s = .next { s with run := .faulted (.inputExhausted (ir.extractLsb' 0 8) ir (s.pc - 1)), wait := none })

/-- 70_reset_and_hazards.md R113: the word a store writes is the instruction the next step executes, if it is stored where
PC points. The premise is the canonical form of memory. -/
def Obligations.StoreIsSeenByNextFetch : Prop :=
  ∀ (s t : State) (a v : Word), s.mem.wf → s.run = .running → s.wait = none → step s = .next t →
    storedWord (decodeWord (s.readMem s.pc)) { s with pc := s.pc + 1 } = some (a, v) →
    t.readMem a = v ∧ (a = t.pc → step t = exec (decodeWord v) { t with pc := t.pc + 1 })

/-- 20_memory.md R33, R34: memories that agree on all 65536 words are the same data. -/
def Obligations.CanonicalMemoriesAreEqualData : Prop :=
  ∀ m m' : Memory, m.wf → m'.wf → (∀ a, m.read a = m'.read a) → m = m'

/-- 70_reset_and_hazards.md R110: the loader contract; that placement wraps and that a longer image is refused is the spec's
own choice (D6, U7, log entry 7). A run starts with the input the host gives, an open parameter (00_scope.md R9), whose end
is EndOfInput: the spec's own choice (D10, log entry 11), held in `input` and `inputEnded` by the model's (log entry 22). The premise is the canonical form of memory, which reset has. -/
def Obligations.LoaderPlacesImage : Prop :=
  (∀ (origin : Word) (image : List Word) (input : List Byte) (s : State), State.start origin image input = some s →
    s.input = input ∧ s.inputEnded = true) ∧
  ∀ (s : State) (origin : Word) (image : List Word), s.mem.wf →
    (image.length ≤ 65536 → ∃ m, s.load origin image = some { s with mem := m, pc := origin } ∧
      (∀ k (h : k < image.length), m.read (wordAfter origin k) = image[k]) ∧
      ∀ a, (∀ k < image.length, a ≠ wordAfter origin k) → m.read a = s.readMem a) ∧
    (65536 < image.length → s.load origin image = none)

/-- 10_state.md R30: every piece of state at allocation, and when the loop starts; the console streams' values
(D10, log entry 11) and that the image wraps (D6, log entry 7) are the spec's own choice. That no read waits when the loop starts (10_state.md R32) is DEDUCED (log entry 15). -/
def Obligations.ResetAndStartValues : Prop :=
  ((∀ r, State.reset.readReg r = 0) ∧ State.reset.pc = 0 ∧ State.reset.cond = 0 ∧ ∀ a, State.reset.readMem a = 0) ∧
  ∀ (origin : Word) (image : List Word) (input : List Byte), image.length ≤ 65536 →
    ∃ s, State.start origin image input = some s ∧ (∀ r, s.readReg r = 0) ∧ s.pc = origin ∧ s.cond = 0 ∧
      (∀ k (h : k < image.length), s.readMem (wordAfter origin k) = image[k]) ∧
      (∀ a, (∀ k < image.length, a ≠ wordAfter origin k) → s.readMem a = 0) ∧
      s.run = .running ∧ s.inPos = 0 ∧ s.out = [] ∧ s.wait = none

/-- 10_state.md R17: the register file as the host reads it; the slot numbers are the spec's own. -/
def Obligations.RegisterFileHasTenSlots : Prop :=
  ∀ (s : State) (r : Reg), s.slot ⟨r.val, by omega⟩ = s.readReg r ∧ s.slot 8 = s.pc ∧ s.slot 9 = s.cond

/-! ## The invariant -/

/-- The invariant holds at reset. The legal values of COND (D2), the state FAULTED (D7), what it records (D12) and the
console model (D10) are the spec's own choice (log entries 2, 8, 13, 11), the wait and the canonical form of memory the
model's (log entries 15, 18). -/
def Obligations.ResetHasInvariant : Prop := State.reset.Inv

/-- Every step keeps the invariant, from every state that has it. What of it is a choice is said at ResetHasInvariant. -/
def Obligations.StepKeepsInvariant : Prop :=
  ∀ s t : State, s.Inv → step s = .next t → t.Inv

/-- Every state that a loaded program can reach has the invariant, whatever the program, its origin and its input. What of it is
a choice is said at ResetHasInvariant; how the loader places the image is the spec's own choice (D6, log entry 7). -/
def Obligations.LoadedRunsKeepInvariant : Prop :=
  ∀ (origin : Word) (image : List Word) (input : List Byte) (s t : State),
    State.start origin image input = some s → Reaches s t → t.Inv
end

