-- ==== Sys2Proof/Laws/Decode.lean ====
section
/-! SUPPORT. Decoding and encoding: the opcode map and the register field are inverse both ways, sign extension gives
the words in a field's range and no others, and the fields of a word put together from its parts. -/

namespace Sys2Proof

/-! ## Tables and fields -/

/-- The opcode map names every number once (30_encoding.md R54). -/
@[simp] theorem Opcode.nibble_ofNibble (n : BitVec 4) : (Opcode.ofNibble n).nibble = n := by
  revert n; decide

@[simp] theorem Opcode.ofNibble_nibble (o : Opcode) : Opcode.ofNibble o.nibble = o := by
  cases o <;> decide

@[simp] theorem regBits_regOfBits (b : BitVec 3) : regBits (regOfBits b) = b := by
  revert b; decide

@[simp] theorem regOfBits_regBits (r : Reg) : regOfBits (regBits r) = r := by
  revert r; decide

/-- Bits 15-12 of a word are the number of its class. -/
theorem nibble_opcodeOf (w : Word) : (opcodeOf w).nibble = w.extractLsb' 12 4 := by
  simp [opcodeOf]

/-! ## Sign extension -/

/-- A sign-extended N-bit field lies in the N-bit signed range (30_encoding.md R52). -/
theorem inRange_sext {n : Nat} (hn : 0 < n) (hn' : n ≤ 16) (v : BitVec n) :
    inRange (-2 ^ (n - 1)) (2 ^ (n - 1) - 1) (sext v) = true := by
  simp only [inRange, sext, BitVec.toInt_signExtend_of_le hn', Bool.and_eq_true, decide_eq_true_eq]
  have h1 := BitVec.le_two_mul_toInt (x := v)
  have h2 := BitVec.two_mul_toInt_lt (x := v)
  obtain ⟨k, rfl⟩ : ∃ k, n = k + 1 := ⟨n - 1, by omega⟩
  simp only [Nat.add_sub_cancel, pow_succ] at *
  omega

/-- A word in the N-bit signed range is the sign extension of its low N bits. -/
theorem sext_extract {n : Nat} {v : Word} (hn : 0 < n) (hn' : n ≤ 16)
    (h : inRange (-2 ^ (n - 1)) (2 ^ (n - 1) - 1) v = true) : sext (v.extractLsb' 0 n) = v := by
  simp only [inRange, Bool.and_eq_true, decide_eq_true_eq] at h
  apply BitVec.eq_of_toInt_eq
  rw [sext, BitVec.toInt_signExtend_of_le hn', ← BitVec.setWidth_eq_extractLsb' hn', BitVec.toInt_setWidth,
    BitVec.toInt_eq_toNat_bmod]
  rw [BitVec.toInt_eq_toNat_bmod] at h
  obtain ⟨k, rfl⟩ : ∃ k, n = k + 1 := ⟨n - 1, by omega⟩
  simp only [Nat.add_sub_cancel] at h
  rw [← Int.bmod_bmod_of_dvd (Nat.pow_dvd_pow 2 hn')]
  have hp : ((2 ^ (k + 1) : Nat) : Int) = 2 * 2 ^ k := by push_cast; ring
  apply Int.bmod_eq_of_le <;> omega

/-- The low N bits of a sign-extended N-bit field are the field. -/
theorem extract_sext {n : Nat} (v : BitVec n) (hn' : n ≤ 16) : (sext v).extractLsb' 0 n = v := by
  ext i hi
  have h16 : i < 16 := by omega
  simp only [sext, BitVec.getElem_extractLsb', BitVec.getLsbD_signExtend]
  simp [h16, hi]

/-! ## A word put together from its fields

One lemma for each format of 30_encoding.md R51: what every field of the word reads. -/

theorem fields_opr_r {op : BitVec 4} {a b : BitVec 3} {m : BitVec 1} {x : BitVec 2} {c : BitVec 3} {w : Word}
    (h : w = op ++ a ++ b ++ m ++ x ++ c) :
    w.extractLsb' 12 4 = op ∧ w.extractLsb' 9 3 = a ∧ w.extractLsb' 6 3 = b ∧ w.getLsbD 5 = m.getLsbD 0 ∧
      w.extractLsb' 3 2 = x ∧ w.extractLsb' 0 3 = c := by
  subst h
  refine ⟨?_, ?_, ?_, ?_, ?_, ?_⟩
  all_goals first
    | (ext i hi; simp only [BitVec.getElem_extractLsb', BitVec.getLsbD_append]; interval_cases i <;> simp)
    | simp only [BitVec.getLsbD_append]; simp

theorem fields_opr_i {op : BitVec 4} {a b : BitVec 3} {m : BitVec 1} {i5 : BitVec 5} {w : Word}
    (h : w = op ++ a ++ b ++ m ++ i5) :
    w.extractLsb' 12 4 = op ∧ w.extractLsb' 9 3 = a ∧ w.extractLsb' 6 3 = b ∧ w.getLsbD 5 = m.getLsbD 0 ∧
      w.extractLsb' 0 5 = i5 := by
  subst h
  refine ⟨?_, ?_, ?_, ?_, ?_⟩
  all_goals first
    | (ext i hi; simp only [BitVec.getElem_extractLsb', BitVec.getLsbD_append]; interval_cases i <;> simp)
    | simp only [BitVec.getLsbD_append]; simp

/-- Formats BR and PCREL. -/
theorem fields_pcrel {op : BitVec 4} {a : BitVec 3} {o : BitVec 9} {w : Word} (h : w = op ++ a ++ o) :
    w.extractLsb' 12 4 = op ∧ w.extractLsb' 9 3 = a ∧ w.extractLsb' 0 9 = o := by
  subst h
  refine ⟨?_, ?_, ?_⟩
  all_goals
    ext i hi; simp only [BitVec.getElem_extractLsb', BitVec.getLsbD_append]; interval_cases i <;> simp

/-- Formats NOT, JMP and BASE. -/
theorem fields_base {op : BitVec 4} {a b : BitVec 3} {o : BitVec 6} {w : Word} (h : w = op ++ a ++ b ++ o) :
    w.extractLsb' 12 4 = op ∧ w.extractLsb' 9 3 = a ∧ w.extractLsb' 6 3 = b ∧ w.extractLsb' 0 6 = o := by
  subst h
  refine ⟨?_, ?_, ?_, ?_⟩
  all_goals
    ext i hi; simp only [BitVec.getElem_extractLsb', BitVec.getLsbD_append]; interval_cases i <;> simp

theorem fields_jsr {op : BitVec 4} {m : BitVec 1} {o : BitVec 11} {w : Word} (h : w = op ++ m ++ o) :
    w.extractLsb' 12 4 = op ∧ w.getLsbD 11 = m.getLsbD 0 ∧ w.extractLsb' 0 11 = o := by
  subst h
  refine ⟨?_, ?_, ?_⟩
  all_goals first
    | (ext i hi; simp only [BitVec.getElem_extractLsb', BitVec.getLsbD_append]; interval_cases i <;> simp)
    | simp only [BitVec.getLsbD_append]; simp

theorem fields_jsrr {op : BitVec 4} {m : BitVec 1} {x : BitVec 2} {b : BitVec 3} {y : BitVec 6} {w : Word}
    (h : w = op ++ m ++ x ++ b ++ y) :
    w.extractLsb' 12 4 = op ∧ w.getLsbD 11 = m.getLsbD 0 ∧ w.extractLsb' 9 2 = x ∧ w.extractLsb' 6 3 = b ∧
      w.extractLsb' 0 6 = y := by
  subst h
  refine ⟨?_, ?_, ?_, ?_, ?_⟩
  all_goals first
    | (ext i hi; simp only [BitVec.getElem_extractLsb', BitVec.getLsbD_append]; interval_cases i <;> simp)
    | simp only [BitVec.getLsbD_append]; simp

theorem fields_trap {op : BitVec 4} {x : BitVec 4} {v : BitVec 8} {w : Word} (h : w = op ++ x ++ v) :
    w.extractLsb' 12 4 = op ∧ w.extractLsb' 8 4 = x ∧ w.extractLsb' 0 8 = v := by
  subst h
  refine ⟨?_, ?_, ?_⟩
  all_goals
    ext i hi; simp only [BitVec.getElem_extractLsb', BitVec.getLsbD_append]; interval_cases i <;> simp

/-- Format NONE. -/
theorem fields_none {op : BitVec 4} {x : BitVec 12} {w : Word} (h : w = op ++ x) :
    w.extractLsb' 12 4 = op ∧ w.extractLsb' 0 12 = x := by
  subst h
  exact ⟨BitVec.extractLsb'_append_eq_left, BitVec.extractLsb'_append_eq_right⟩

/-! ## Classes -/

/-- A word whose bits 15-12 are a class's number is of that class. -/
theorem opcodeOf_eq {w : Word} {o : Opcode} (h : w.extractLsb' 12 4 = o.nibble) : opcodeOf w = o := by
  simp [opcodeOf, h]

/-- A register field that holds a register's number names that register. -/
theorem regField_eq {w : Word} {lo : Nat} {r : Reg} (h : w.extractLsb' lo 3 = regBits r) : regField lo w = r := by
  simp [regField, h]

/-- The word of a TRAP is a TRAP word, with its vector in bits 7-0 (43_trap.md R81). -/
theorem encode_trap_fields (x : BitVec 4) (v : Byte) :
    opcodeOf (encode (.trap x v)) = .trap ∧ lowByte (encode (.trap x v)) = v :=
  let h := fields_trap (w := encode (.trap x v)) rfl
  ⟨opcodeOf_eq h.1, h.2.2⟩

end Sys2Proof
end

