-- ==== Sys2Proof/Laws/State.lean ====
section
/-! SUPPORT. One lemma per field per update of State, and what the accessors read after each update, so that no proof
unfolds a record update. -/

namespace Sys2Proof.Machine

variable (s : State)

/-! ### setcc -/

@[simp] theorem State.setcc_regs (v : Word) : (s.setcc v).regs = s.regs := rfl
@[simp] theorem State.setcc_pc (v : Word) : (s.setcc v).pc = s.pc := rfl
@[simp] theorem State.setcc_cond (v : Word) : (s.setcc v).cond = (classify v).bits := rfl
@[simp] theorem State.setcc_mem (v : Word) : (s.setcc v).mem = s.mem := rfl
@[simp] theorem State.setcc_run (v : Word) : (s.setcc v).run = s.run := rfl
@[simp] theorem State.setcc_input (v : Word) : (s.setcc v).input = s.input := rfl
@[simp] theorem State.setcc_inputEnded (v : Word) : (s.setcc v).inputEnded = s.inputEnded := rfl
@[simp] theorem State.setcc_inPos (v : Word) : (s.setcc v).inPos = s.inPos := rfl
@[simp] theorem State.setcc_out (v : Word) : (s.setcc v).out = s.out := rfl
@[simp] theorem State.setcc_wait (v : Word) : (s.setcc v).wait = s.wait := rfl
@[simp] theorem State.setcc_readReg (v : Word) (q : Reg) : (s.setcc v).readReg q = s.readReg q := rfl
@[simp] theorem State.setcc_readMem (v : Word) (b : Word) : (s.setcc v).readMem b = s.readMem b := rfl
@[simp] theorem State.setcc_instrAddr (v : Word) : (s.setcc v).instrAddr = s.instrAddr := rfl
@[simp] theorem State.setcc_consoleAnswer (v : Word) : (s.setcc v).consoleAnswer = s.consoleAnswer := rfl

/-! ### writeReg -/

@[simp] theorem State.writeReg_regs (r : Reg) (v : Word) : (s.writeReg r v).regs = s.regs.set r v := rfl
@[simp] theorem State.writeReg_pc (r : Reg) (v : Word) : (s.writeReg r v).pc = s.pc := rfl
@[simp] theorem State.writeReg_cond (r : Reg) (v : Word) : (s.writeReg r v).cond = s.cond := rfl
@[simp] theorem State.writeReg_mem (r : Reg) (v : Word) : (s.writeReg r v).mem = s.mem := rfl
@[simp] theorem State.writeReg_run (r : Reg) (v : Word) : (s.writeReg r v).run = s.run := rfl
@[simp] theorem State.writeReg_input (r : Reg) (v : Word) : (s.writeReg r v).input = s.input := rfl
@[simp] theorem State.writeReg_inputEnded (r : Reg) (v : Word) : (s.writeReg r v).inputEnded = s.inputEnded := rfl
@[simp] theorem State.writeReg_inPos (r : Reg) (v : Word) : (s.writeReg r v).inPos = s.inPos := rfl
@[simp] theorem State.writeReg_out (r : Reg) (v : Word) : (s.writeReg r v).out = s.out := rfl
@[simp] theorem State.writeReg_wait (r : Reg) (v : Word) : (s.writeReg r v).wait = s.wait := rfl
@[simp] theorem State.writeReg_readMem (r : Reg) (v : Word) (b : Word) : (s.writeReg r v).readMem b = s.readMem b := rfl
@[simp] theorem State.writeReg_instrAddr (r : Reg) (v : Word) : (s.writeReg r v).instrAddr = s.instrAddr := rfl
@[simp] theorem State.writeReg_consoleAnswer (r : Reg) (v : Word) : (s.writeReg r v).consoleAnswer = s.consoleAnswer := rfl

/-! ### setPc -/

@[simp] theorem State.setPc_regs (a : Word) : (s.setPc a).regs = s.regs := rfl
@[simp] theorem State.setPc_pc (a : Word) : (s.setPc a).pc = a := rfl
@[simp] theorem State.setPc_cond (a : Word) : (s.setPc a).cond = s.cond := rfl
@[simp] theorem State.setPc_mem (a : Word) : (s.setPc a).mem = s.mem := rfl
@[simp] theorem State.setPc_run (a : Word) : (s.setPc a).run = s.run := rfl
@[simp] theorem State.setPc_input (a : Word) : (s.setPc a).input = s.input := rfl
@[simp] theorem State.setPc_inputEnded (a : Word) : (s.setPc a).inputEnded = s.inputEnded := rfl
@[simp] theorem State.setPc_inPos (a : Word) : (s.setPc a).inPos = s.inPos := rfl
@[simp] theorem State.setPc_out (a : Word) : (s.setPc a).out = s.out := rfl
@[simp] theorem State.setPc_wait (a : Word) : (s.setPc a).wait = s.wait := rfl
@[simp] theorem State.setPc_readReg (a : Word) (q : Reg) : (s.setPc a).readReg q = s.readReg q := rfl
@[simp] theorem State.setPc_readMem (a : Word) (b : Word) : (s.setPc a).readMem b = s.readMem b := rfl
@[simp] theorem State.setPc_consoleAnswer (a : Word) : (s.setPc a).consoleAnswer = s.consoleAnswer := rfl

/-! ### writeResult -/

@[simp] theorem State.writeResult_regs (r : Reg) (v : Word) : (s.writeResult r v).regs = s.regs.set r v := rfl
@[simp] theorem State.writeResult_pc (r : Reg) (v : Word) : (s.writeResult r v).pc = s.pc := rfl
@[simp] theorem State.writeResult_cond (r : Reg) (v : Word) : (s.writeResult r v).cond = (classify v).bits := rfl
@[simp] theorem State.writeResult_mem (r : Reg) (v : Word) : (s.writeResult r v).mem = s.mem := rfl
@[simp] theorem State.writeResult_run (r : Reg) (v : Word) : (s.writeResult r v).run = s.run := rfl
@[simp] theorem State.writeResult_input (r : Reg) (v : Word) : (s.writeResult r v).input = s.input := rfl
@[simp] theorem State.writeResult_inputEnded (r : Reg) (v : Word) : (s.writeResult r v).inputEnded = s.inputEnded := rfl
@[simp] theorem State.writeResult_inPos (r : Reg) (v : Word) : (s.writeResult r v).inPos = s.inPos := rfl
@[simp] theorem State.writeResult_out (r : Reg) (v : Word) : (s.writeResult r v).out = s.out := rfl
@[simp] theorem State.writeResult_wait (r : Reg) (v : Word) : (s.writeResult r v).wait = s.wait := rfl
@[simp] theorem State.writeResult_readMem (r : Reg) (v : Word) (b : Word) : (s.writeResult r v).readMem b = s.readMem b := rfl
@[simp] theorem State.writeResult_instrAddr (r : Reg) (v : Word) : (s.writeResult r v).instrAddr = s.instrAddr := rfl
@[simp] theorem State.writeResult_consoleAnswer (r : Reg) (v : Word) : (s.writeResult r v).consoleAnswer = s.consoleAnswer := rfl

/-! ### writeMem -/

@[simp] theorem State.writeMem_regs (a v : Word) : (s.writeMem a v).regs = s.regs := rfl
@[simp] theorem State.writeMem_pc (a v : Word) : (s.writeMem a v).pc = s.pc := rfl
@[simp] theorem State.writeMem_cond (a v : Word) : (s.writeMem a v).cond = s.cond := rfl
@[simp] theorem State.writeMem_mem (a v : Word) : (s.writeMem a v).mem = s.mem.write a v := rfl
@[simp] theorem State.writeMem_run (a v : Word) : (s.writeMem a v).run = s.run := rfl
@[simp] theorem State.writeMem_input (a v : Word) : (s.writeMem a v).input = s.input := rfl
@[simp] theorem State.writeMem_inputEnded (a v : Word) : (s.writeMem a v).inputEnded = s.inputEnded := rfl
@[simp] theorem State.writeMem_inPos (a v : Word) : (s.writeMem a v).inPos = s.inPos := rfl
@[simp] theorem State.writeMem_out (a v : Word) : (s.writeMem a v).out = s.out := rfl
@[simp] theorem State.writeMem_wait (a v : Word) : (s.writeMem a v).wait = s.wait := rfl
@[simp] theorem State.writeMem_readReg (a v : Word) (q : Reg) : (s.writeMem a v).readReg q = s.readReg q := rfl
@[simp] theorem State.writeMem_instrAddr (a v : Word) : (s.writeMem a v).instrAddr = s.instrAddr := rfl
@[simp] theorem State.writeMem_consoleAnswer (a v : Word) : (s.writeMem a v).consoleAnswer = s.consoleAnswer := rfl

/-! ### afterFetch -/

@[simp] theorem State.afterFetch_regs : (s.afterFetch).regs = s.regs := rfl
@[simp] theorem State.afterFetch_pc : (s.afterFetch).pc = s.pc + 1 := rfl
@[simp] theorem State.afterFetch_cond : (s.afterFetch).cond = s.cond := rfl
@[simp] theorem State.afterFetch_mem : (s.afterFetch).mem = s.mem := rfl
@[simp] theorem State.afterFetch_run : (s.afterFetch).run = s.run := rfl
@[simp] theorem State.afterFetch_input : (s.afterFetch).input = s.input := rfl
@[simp] theorem State.afterFetch_inputEnded : (s.afterFetch).inputEnded = s.inputEnded := rfl
@[simp] theorem State.afterFetch_inPos : (s.afterFetch).inPos = s.inPos := rfl
@[simp] theorem State.afterFetch_out : (s.afterFetch).out = s.out := rfl
@[simp] theorem State.afterFetch_wait : (s.afterFetch).wait = s.wait := rfl
@[simp] theorem State.afterFetch_readReg (q : Reg) : (s.afterFetch).readReg q = s.readReg q := rfl
@[simp] theorem State.afterFetch_readMem (b : Word) : (s.afterFetch).readMem b = s.readMem b := rfl
@[simp] theorem State.afterFetch_consoleAnswer : (s.afterFetch).consoleAnswer = s.consoleAnswer := rfl

/-! ### link -/

@[simp] theorem State.link_regs : (s.link).regs = s.regs.set linkReg s.pc := rfl
@[simp] theorem State.link_pc : (s.link).pc = s.pc := rfl
@[simp] theorem State.link_cond : (s.link).cond = s.cond := rfl
@[simp] theorem State.link_mem : (s.link).mem = s.mem := rfl
@[simp] theorem State.link_run : (s.link).run = s.run := rfl
@[simp] theorem State.link_input : (s.link).input = s.input := rfl
@[simp] theorem State.link_inputEnded : (s.link).inputEnded = s.inputEnded := rfl
@[simp] theorem State.link_inPos : (s.link).inPos = s.inPos := rfl
@[simp] theorem State.link_out : (s.link).out = s.out := rfl
@[simp] theorem State.link_wait : (s.link).wait = s.wait := rfl
@[simp] theorem State.link_readMem (b : Word) : (s.link).readMem b = s.readMem b := rfl
@[simp] theorem State.link_instrAddr : (s.link).instrAddr = s.instrAddr := rfl
@[simp] theorem State.link_consoleAnswer : (s.link).consoleAnswer = s.consoleAnswer := rfl

/-! ### consoleWrite -/

@[simp] theorem State.consoleWrite_regs (bs : List Byte) : (s.consoleWrite bs).regs = s.regs := rfl
@[simp] theorem State.consoleWrite_pc (bs : List Byte) : (s.consoleWrite bs).pc = s.pc := rfl
@[simp] theorem State.consoleWrite_cond (bs : List Byte) : (s.consoleWrite bs).cond = s.cond := rfl
@[simp] theorem State.consoleWrite_mem (bs : List Byte) : (s.consoleWrite bs).mem = s.mem := rfl
@[simp] theorem State.consoleWrite_run (bs : List Byte) : (s.consoleWrite bs).run = s.run := rfl
@[simp] theorem State.consoleWrite_input (bs : List Byte) : (s.consoleWrite bs).input = s.input := rfl
@[simp] theorem State.consoleWrite_inputEnded (bs : List Byte) : (s.consoleWrite bs).inputEnded = s.inputEnded := rfl
@[simp] theorem State.consoleWrite_inPos (bs : List Byte) : (s.consoleWrite bs).inPos = s.inPos := rfl
@[simp] theorem State.consoleWrite_out (bs : List Byte) : (s.consoleWrite bs).out = s.out ++ bs := rfl
@[simp] theorem State.consoleWrite_wait (bs : List Byte) : (s.consoleWrite bs).wait = s.wait := rfl
@[simp] theorem State.consoleWrite_readReg (bs : List Byte) (q : Reg) : (s.consoleWrite bs).readReg q = s.readReg q := rfl
@[simp] theorem State.consoleWrite_readMem (bs : List Byte) (b : Word) : (s.consoleWrite bs).readMem b = s.readMem b := rfl
@[simp] theorem State.consoleWrite_instrAddr (bs : List Byte) : (s.consoleWrite bs).instrAddr = s.instrAddr := rfl
@[simp] theorem State.consoleWrite_consoleAnswer (bs : List Byte) : (s.consoleWrite bs).consoleAnswer = s.consoleAnswer := rfl

/-! ### consumeByte -/

@[simp] theorem State.consumeByte_regs : (s.consumeByte).regs = s.regs := rfl
@[simp] theorem State.consumeByte_pc : (s.consumeByte).pc = s.pc := rfl
@[simp] theorem State.consumeByte_cond : (s.consumeByte).cond = s.cond := rfl
@[simp] theorem State.consumeByte_mem : (s.consumeByte).mem = s.mem := rfl
@[simp] theorem State.consumeByte_run : (s.consumeByte).run = s.run := rfl
@[simp] theorem State.consumeByte_input : (s.consumeByte).input = s.input := rfl
@[simp] theorem State.consumeByte_inputEnded : (s.consumeByte).inputEnded = s.inputEnded := rfl
@[simp] theorem State.consumeByte_inPos : (s.consumeByte).inPos = s.inPos + 1 := rfl
@[simp] theorem State.consumeByte_out : (s.consumeByte).out = s.out := rfl
@[simp] theorem State.consumeByte_wait : (s.consumeByte).wait = s.wait := rfl
@[simp] theorem State.consumeByte_readReg (q : Reg) : (s.consumeByte).readReg q = s.readReg q := rfl
@[simp] theorem State.consumeByte_readMem (b : Word) : (s.consumeByte).readMem b = s.readMem b := rfl
@[simp] theorem State.consumeByte_instrAddr : (s.consumeByte).instrAddr = s.instrAddr := rfl

/-! ### setWait -/

@[simp] theorem State.setWait_regs (w : Option Word) : (s.setWait w).regs = s.regs := rfl
@[simp] theorem State.setWait_pc (w : Option Word) : (s.setWait w).pc = s.pc := rfl
@[simp] theorem State.setWait_cond (w : Option Word) : (s.setWait w).cond = s.cond := rfl
@[simp] theorem State.setWait_mem (w : Option Word) : (s.setWait w).mem = s.mem := rfl
@[simp] theorem State.setWait_run (w : Option Word) : (s.setWait w).run = s.run := rfl
@[simp] theorem State.setWait_input (w : Option Word) : (s.setWait w).input = s.input := rfl
@[simp] theorem State.setWait_inputEnded (w : Option Word) : (s.setWait w).inputEnded = s.inputEnded := rfl
@[simp] theorem State.setWait_inPos (w : Option Word) : (s.setWait w).inPos = s.inPos := rfl
@[simp] theorem State.setWait_out (w : Option Word) : (s.setWait w).out = s.out := rfl
@[simp] theorem State.setWait_wait (w : Option Word) : (s.setWait w).wait = w := rfl
@[simp] theorem State.setWait_readReg (w : Option Word) (q : Reg) : (s.setWait w).readReg q = s.readReg q := rfl
@[simp] theorem State.setWait_readMem (w : Option Word) (b : Word) : (s.setWait w).readMem b = s.readMem b := rfl
@[simp] theorem State.setWait_instrAddr (w : Option Word) : (s.setWait w).instrAddr = s.instrAddr := rfl
@[simp] theorem State.setWait_consoleAnswer (w : Option Word) : (s.setWait w).consoleAnswer = s.consoleAnswer := rfl

/-! ### halt -/

@[simp] theorem State.halt_regs : (s.halt).regs = s.regs := rfl
@[simp] theorem State.halt_pc : (s.halt).pc = s.pc := rfl
@[simp] theorem State.halt_cond : (s.halt).cond = s.cond := rfl
@[simp] theorem State.halt_mem : (s.halt).mem = s.mem := rfl
@[simp] theorem State.halt_run : (s.halt).run = .halted := rfl
@[simp] theorem State.halt_input : (s.halt).input = s.input := rfl
@[simp] theorem State.halt_inputEnded : (s.halt).inputEnded = s.inputEnded := rfl
@[simp] theorem State.halt_inPos : (s.halt).inPos = s.inPos := rfl
@[simp] theorem State.halt_out : (s.halt).out = s.out := rfl
@[simp] theorem State.halt_wait : (s.halt).wait = s.wait := rfl
@[simp] theorem State.halt_readReg (q : Reg) : (s.halt).readReg q = s.readReg q := rfl
@[simp] theorem State.halt_readMem (b : Word) : (s.halt).readMem b = s.readMem b := rfl
@[simp] theorem State.halt_instrAddr : (s.halt).instrAddr = s.instrAddr := rfl
@[simp] theorem State.halt_consoleAnswer : (s.halt).consoleAnswer = s.consoleAnswer := rfl

/-! ### raise -/

@[simp] theorem State.raise_regs (f : FaultRecord) : (s.raise f).regs = s.regs := rfl
@[simp] theorem State.raise_pc (f : FaultRecord) : (s.raise f).pc = s.pc := rfl
@[simp] theorem State.raise_cond (f : FaultRecord) : (s.raise f).cond = s.cond := rfl
@[simp] theorem State.raise_mem (f : FaultRecord) : (s.raise f).mem = s.mem := rfl
@[simp] theorem State.raise_run (f : FaultRecord) : (s.raise f).run = .faulted f := rfl
@[simp] theorem State.raise_input (f : FaultRecord) : (s.raise f).input = s.input := rfl
@[simp] theorem State.raise_inputEnded (f : FaultRecord) : (s.raise f).inputEnded = s.inputEnded := rfl
@[simp] theorem State.raise_inPos (f : FaultRecord) : (s.raise f).inPos = s.inPos := rfl
@[simp] theorem State.raise_out (f : FaultRecord) : (s.raise f).out = s.out := rfl
@[simp] theorem State.raise_wait (f : FaultRecord) : (s.raise f).wait = s.wait := rfl
@[simp] theorem State.raise_readReg (f : FaultRecord) (q : Reg) : (s.raise f).readReg q = s.readReg q := rfl
@[simp] theorem State.raise_readMem (f : FaultRecord) (b : Word) : (s.raise f).readMem b = s.readMem b := rfl
@[simp] theorem State.raise_instrAddr (f : FaultRecord) : (s.raise f).instrAddr = s.instrAddr := rfl
@[simp] theorem State.raise_consoleAnswer (f : FaultRecord) : (s.raise f).consoleAnswer = s.consoleAnswer := rfl

/-! ### raiseIllegalOpcode -/

@[simp] theorem State.raiseIllegalOpcode_regs (ir : Word) : (s.raiseIllegalOpcode ir).regs = s.regs := rfl
@[simp] theorem State.raiseIllegalOpcode_pc (ir : Word) : (s.raiseIllegalOpcode ir).pc = s.pc := rfl
@[simp] theorem State.raiseIllegalOpcode_cond (ir : Word) : (s.raiseIllegalOpcode ir).cond = s.cond := rfl
@[simp] theorem State.raiseIllegalOpcode_mem (ir : Word) : (s.raiseIllegalOpcode ir).mem = s.mem := rfl
@[simp] theorem State.raiseIllegalOpcode_run (ir : Word) : (s.raiseIllegalOpcode ir).run = .faulted (.illegalOpcode ir s.instrAddr) := rfl
@[simp] theorem State.raiseIllegalOpcode_input (ir : Word) : (s.raiseIllegalOpcode ir).input = s.input := rfl
@[simp] theorem State.raiseIllegalOpcode_inputEnded (ir : Word) : (s.raiseIllegalOpcode ir).inputEnded = s.inputEnded := rfl
@[simp] theorem State.raiseIllegalOpcode_inPos (ir : Word) : (s.raiseIllegalOpcode ir).inPos = s.inPos := rfl
@[simp] theorem State.raiseIllegalOpcode_out (ir : Word) : (s.raiseIllegalOpcode ir).out = s.out := rfl
@[simp] theorem State.raiseIllegalOpcode_wait (ir : Word) : (s.raiseIllegalOpcode ir).wait = s.wait := rfl
@[simp] theorem State.raiseIllegalOpcode_readReg (ir : Word) (q : Reg) : (s.raiseIllegalOpcode ir).readReg q = s.readReg q := rfl
@[simp] theorem State.raiseIllegalOpcode_readMem (ir : Word) (b : Word) : (s.raiseIllegalOpcode ir).readMem b = s.readMem b := rfl
@[simp] theorem State.raiseIllegalOpcode_instrAddr (ir : Word) : (s.raiseIllegalOpcode ir).instrAddr = s.instrAddr := rfl
@[simp] theorem State.raiseIllegalOpcode_consoleAnswer (ir : Word) : (s.raiseIllegalOpcode ir).consoleAnswer = s.consoleAnswer := rfl

/-! ### raiseUndefinedTrap -/

@[simp] theorem State.raiseUndefinedTrap_regs (ir : Word) : (s.raiseUndefinedTrap ir).regs = s.regs := rfl
@[simp] theorem State.raiseUndefinedTrap_pc (ir : Word) : (s.raiseUndefinedTrap ir).pc = s.pc := rfl
@[simp] theorem State.raiseUndefinedTrap_cond (ir : Word) : (s.raiseUndefinedTrap ir).cond = s.cond := rfl
@[simp] theorem State.raiseUndefinedTrap_mem (ir : Word) : (s.raiseUndefinedTrap ir).mem = s.mem := rfl
@[simp] theorem State.raiseUndefinedTrap_run (ir : Word) : (s.raiseUndefinedTrap ir).run = .faulted (.undefinedTrap (lowByte ir) ir s.instrAddr) := rfl
@[simp] theorem State.raiseUndefinedTrap_input (ir : Word) : (s.raiseUndefinedTrap ir).input = s.input := rfl
@[simp] theorem State.raiseUndefinedTrap_inputEnded (ir : Word) : (s.raiseUndefinedTrap ir).inputEnded = s.inputEnded := rfl
@[simp] theorem State.raiseUndefinedTrap_inPos (ir : Word) : (s.raiseUndefinedTrap ir).inPos = s.inPos := rfl
@[simp] theorem State.raiseUndefinedTrap_out (ir : Word) : (s.raiseUndefinedTrap ir).out = s.out := rfl
@[simp] theorem State.raiseUndefinedTrap_wait (ir : Word) : (s.raiseUndefinedTrap ir).wait = s.wait := rfl
@[simp] theorem State.raiseUndefinedTrap_readReg (ir : Word) (q : Reg) : (s.raiseUndefinedTrap ir).readReg q = s.readReg q := rfl
@[simp] theorem State.raiseUndefinedTrap_readMem (ir : Word) (b : Word) : (s.raiseUndefinedTrap ir).readMem b = s.readMem b := rfl
@[simp] theorem State.raiseUndefinedTrap_instrAddr (ir : Word) : (s.raiseUndefinedTrap ir).instrAddr = s.instrAddr := rfl
@[simp] theorem State.raiseUndefinedTrap_consoleAnswer (ir : Word) : (s.raiseUndefinedTrap ir).consoleAnswer = s.consoleAnswer := rfl

/-! ### raiseInputExhausted -/

@[simp] theorem State.raiseInputExhausted_regs (ir : Word) : (s.raiseInputExhausted ir).regs = s.regs := rfl
@[simp] theorem State.raiseInputExhausted_pc (ir : Word) : (s.raiseInputExhausted ir).pc = s.pc := rfl
@[simp] theorem State.raiseInputExhausted_cond (ir : Word) : (s.raiseInputExhausted ir).cond = s.cond := rfl
@[simp] theorem State.raiseInputExhausted_mem (ir : Word) : (s.raiseInputExhausted ir).mem = s.mem := rfl
@[simp] theorem State.raiseInputExhausted_run (ir : Word) : (s.raiseInputExhausted ir).run = .faulted (.inputExhausted (lowByte ir) ir s.instrAddr) := rfl
@[simp] theorem State.raiseInputExhausted_input (ir : Word) : (s.raiseInputExhausted ir).input = s.input := rfl
@[simp] theorem State.raiseInputExhausted_inputEnded (ir : Word) : (s.raiseInputExhausted ir).inputEnded = s.inputEnded := rfl
@[simp] theorem State.raiseInputExhausted_inPos (ir : Word) : (s.raiseInputExhausted ir).inPos = s.inPos := rfl
@[simp] theorem State.raiseInputExhausted_out (ir : Word) : (s.raiseInputExhausted ir).out = s.out := rfl
@[simp] theorem State.raiseInputExhausted_wait (ir : Word) : (s.raiseInputExhausted ir).wait = s.wait := rfl
@[simp] theorem State.raiseInputExhausted_readReg (ir : Word) (q : Reg) : (s.raiseInputExhausted ir).readReg q = s.readReg q := rfl
@[simp] theorem State.raiseInputExhausted_readMem (ir : Word) (b : Word) : (s.raiseInputExhausted ir).readMem b = s.readMem b := rfl
@[simp] theorem State.raiseInputExhausted_instrAddr (ir : Word) : (s.raiseInputExhausted ir).instrAddr = s.instrAddr := rfl
@[simp] theorem State.raiseInputExhausted_consoleAnswer (ir : Word) : (s.raiseInputExhausted ir).consoleAnswer = s.consoleAnswer := rfl

/-! ### registers -/

/-- A register reads as the value last written to it, and every other register is as before (10_state.md R18). -/
theorem State.writeReg_readReg (r q : Reg) (v : Word) :
    (s.writeReg r v).readReg q = if q = r then v else s.readReg q := by
  simp only [State.writeReg, State.readReg, Fin.getElem_fin, Vector.getElem_set, Fin.ext_iff, eq_comm]

@[simp] theorem State.writeReg_readReg_same (r : Reg) (v : Word) : (s.writeReg r v).readReg r = v := by
  simp [State.writeReg_readReg]

@[simp] theorem State.writeReg_readReg_ne {r q : Reg} (h : q ≠ r) (v : Word) :
    (s.writeReg r v).readReg q = s.readReg q := by
  simp [State.writeReg_readReg, h]

/-- The result of an instruction stands in dr and nowhere else. -/
theorem State.writeResult_readReg (r q : Reg) (v : Word) :
    (s.writeResult r v).readReg q = if q = r then v else s.readReg q :=
  State.writeReg_readReg s r q v

/-- Linking writes R7 with PC and no other register (41_control.md R70). -/
theorem State.link_readReg (q : Reg) : s.link.readReg q = if q = 7 then s.pc else s.readReg q :=
  State.writeReg_readReg s linkReg q s.pc

/-- After the fetch, `PC - 1` is the address fetched from, also where PC wrapped (60_exceptions.md R92). -/
@[simp] theorem State.afterFetch_instrAddr : s.afterFetch.instrAddr = s.pc := by
  simp [State.instrAddr]

end Sys2Proof.Machine
end

