-- ==== Sys2Proof/Laws/Memory.lean ====
section
/-! SUPPORT. Memory: reads after writes, and that every memory operation keeps the canonical form. -/

namespace Sys2Proof.Machine

/-! ### one cell -/

theorem Memory.readAt_cons (a b : Nat) (v : Word) (rest : Memory) (h : a = b → rest.readAt b = Memory.unlisted) :
    (Memory.cons a v rest).readAt b = if b = a then v else rest.readAt b := by
  unfold Memory.cons
  split
  · split
    · subst_vars; simpa using h rfl
    · rfl
  · simp only [Memory.readAt, eq_comm]

/-- An address below every listed one reads as unlisted. -/
theorem Memory.readAt_of_lt {m : Memory} {a : Nat} (h : ∀ c ∈ m, a < c.1) : m.readAt a = Memory.unlisted := by
  induction m with
  | nil => rfl
  | cons c rest ih =>
    have hc := h c (by simp)
    simp only [Memory.readAt]
    rw [if_neg (by omega)]
    exact ih fun d hd => h d (by simp [hd])

theorem Memory.wf_nil : Memory.wf [] := by simp [Memory.wf]

theorem Memory.wf_cons_iff {k : Nat} {w : Word} {rest : Memory} :
    Memory.wf ((k, w) :: rest) ↔
      (∀ c ∈ rest, k < c.1) ∧ k < Config.memorySize ∧ w ≠ Memory.unlisted ∧ Memory.wf rest := by
  simp only [Memory.wf, List.pairwise_cons, List.forall_mem_cons]
  tauto

/-! ### reads after writes -/

/-- A word reads as the value last written to its address, and every other address is as before (20_memory.md R43). -/
theorem Memory.readAt_writeAt {m : Memory} (h : m.wf) (a b : Nat) (v : Word) :
    (m.writeAt a v).readAt b = if b = a then v else m.readAt b := by
  induction m with
  | nil => exact Memory.readAt_cons a b v [] fun _ => rfl
  | cons c rest ih =>
    obtain ⟨k, w⟩ := c
    obtain ⟨hlt, -, -, hrest⟩ := Memory.wf_cons_iff.1 h
    by_cases hka : k < a
    · simp only [Memory.writeAt, if_pos hka, Memory.readAt, ih hrest]
      grind
    by_cases hka' : k = a
    · subst hka'
      simp only [Memory.writeAt, if_neg hka, if_true]
      rw [Memory.readAt_cons _ _ _ _ fun hb => hb ▸ Memory.readAt_of_lt hlt]
      simp only [Memory.readAt]
      grind
    · simp only [Memory.writeAt, if_neg hka, if_neg hka']
      refine Memory.readAt_cons a b v _ fun hb => Memory.readAt_of_lt fun d hd => ?_
      subst hb
      rcases List.mem_cons.1 hd with rfl | hd
      · show a < k; omega
      · have := hlt d hd; omega

/-- Read after write, by address (20_memory.md R43). -/
theorem Memory.read_write {m : Memory} (h : m.wf) (a b v : Word) :
    (m.write a v).read b = if b = a then v else m.read b := by
  simp only [Memory.read, Memory.write, Memory.readAt_writeAt h, BitVec.toNat_inj]

/-! ### the canonical form -/

theorem Memory.cons_wf {a : Nat} {v : Word} {rest : Memory} (ha : a < Config.memorySize)
    (hlt : ∀ c ∈ rest, a < c.1) (h : rest.wf) : (Memory.cons a v rest).wf := by
  unfold Memory.cons
  split
  · exact h
  · exact Memory.wf_cons_iff.2 ⟨hlt, ha, ‹_›, h⟩

theorem Memory.mem_writeAt {m : Memory} {a : Nat} {v : Word} {c : Nat × Word} (h : c ∈ m.writeAt a v) :
    c.1 = a ∨ c ∈ m := by
  induction m with
  | nil =>
    simp only [Memory.writeAt, Memory.cons] at h
    split at h
    · simp at h
    · simp only [List.mem_singleton] at h; simp [h]
  | cons d rest ih =>
    obtain ⟨k, w⟩ := d
    simp only [Memory.writeAt, Memory.cons] at h
    split_ifs at h <;> simp only [List.mem_cons] at h ⊢
    · rcases h with rfl | h
      · simp
      · rcases ih h with h | h <;> simp [h]
    all_goals grind

theorem Memory.writeAt_wf {m : Memory} (h : m.wf) {a : Nat} (ha : a < Config.memorySize) (v : Word) :
    (m.writeAt a v).wf := by
  induction m with
  | nil => exact Memory.cons_wf ha (by simp) h
  | cons c rest ih =>
    obtain ⟨k, w⟩ := c
    obtain ⟨hlt, hk, hw, hrest⟩ := Memory.wf_cons_iff.1 h
    simp only [Memory.writeAt]
    split_ifs with hka hka'
    · refine Memory.wf_cons_iff.2 ⟨fun c hc => ?_, hk, hw, ih hrest⟩
      rcases Memory.mem_writeAt hc with hc | hc
      · omega
      · exact hlt c hc
    · exact Memory.cons_wf ha (hka' ▸ hlt) hrest
    · refine Memory.cons_wf ha (fun c hc => ?_) h
      rcases List.mem_cons.1 hc with rfl | hc
      · show a < k; omega
      · have := hlt c hc; omega

/-- A word written keeps the canonical form. -/
theorem Memory.write_wf {m : Memory} (h : m.wf) (a v : Word) : (m.write a v).wf :=
  Memory.writeAt_wf h a.isLt v

/-- A list of words written keeps the canonical form. -/
theorem Memory.writeWords_wf {m : Memory} (h : m.wf) (a : Word) (ws : List Word) : (m.writeWords a ws).wf := by
  induction ws generalizing m a with
  | nil => exact h
  | cons v vs ih => exact ih (Memory.write_wf h a v) (a + 1)

/-- The reset memory is in canonical form and reads as zero everywhere (10_state.md R30). -/
theorem Memory.reset_wf : State.reset.mem.wf := Memory.wf_nil

@[simp] theorem Memory.reset_read (a : Word) : State.reset.readMem a = 0 := rfl

/-! ### strings -/

/-- Counting on from the next address. -/
theorem Word.succ_add (a : Word) (j : Nat) : a + 1 + BitVec.ofNat 16 j = a + BitVec.ofNat 16 (j + 1) := by
  apply BitVec.eq_of_toNat_eq
  simp only [BitVec.toNat_add, BitVec.toNat_ofNat, show (1 : Word).toNat = 1 from rfl]
  omega

/-- Everything `stringWords` can answer when it answers a string: the words from the address on, none of them zero, and
after them a zero word (43_trap.md R85). -/
theorem Memory.stringWords_some {m : Memory} {fuel : Nat} {a : Word} {ws : List Word}
    (h : m.stringWords fuel a = some ws) :
    ws.length < fuel ∧ (∀ j (hj : j < ws.length), ws[j] = m.read (a + BitVec.ofNat 16 j) ∧ ws[j] ≠ 0) ∧
      m.read (a + BitVec.ofNat 16 ws.length) = 0 := by
  induction fuel generalizing a ws with
  | zero => simp [Memory.stringWords] at h
  | succ fuel ih =>
    simp only [Memory.stringWords] at h
    split at h
    · obtain rfl := Option.some.inj h
      simpa
    · obtain ⟨vs, hvs, rfl⟩ := Option.map_eq_some_iff.1 h
      obtain ⟨hlen, hall, hz⟩ := ih hvs
      refine ⟨by simpa using hlen, fun j hj => ?_, Word.succ_add a _ ▸ hz⟩
      cases j with
      | zero => simpa
      | succ j => exact Word.succ_add a j ▸ hall j (by simpa using hj)

/-- `stringWords` answers no string only when every word it looks at is non-zero. -/
theorem Memory.stringWords_none {m : Memory} {fuel : Nat} {a : Word} (h : m.stringWords fuel a = none) :
    ∀ j < fuel, m.read (a + BitVec.ofNat 16 j) ≠ 0 := by
  induction fuel generalizing a with
  | zero => simp
  | succ fuel ih =>
    simp only [Memory.stringWords] at h
    split at h
    · simp at h
    · intro j hj
      cases j with
      | zero => simpa
      | succ j => exact Word.succ_add a j ▸ ih (by simpa using h) j (by omega)

end Sys2Proof.Machine
end

