-- ==== Sys2Proof/Laws/Ops.lean ====
section
/-! SUPPORT. What the shared operations, TRAP, exec and step can do, each said once: proofs cite these and do not unfold. -/

namespace Sys2Proof.Machine

/-! ## Flags -/

/-- The flag-update step leaves one bit of COND (10_state.md R24). -/
theorem classify_bits_oneHot (v : Word) :
    (classify v).bits = 0x0001 ∨ (classify v).bits = 0x0002 ∨ (classify v).bits = 0x0004 := by
  cases classify v <;> simp [FlagClass.bits, flPos, flZro, flNeg]

/-! ## The console read -/

theorem State.readToR0_byte {s : State} {b : Byte} (ir : Word) (h : s.consoleAnswer = .byte b) :
    s.readToR0 ir = (s.consumeByte.writeReg 0 (zext b)).setWait none := by
  simp only [State.readToR0, h]

theorem State.readToR0_endOfInput {s : State} (ir : Word) (h : s.consoleAnswer = .endOfInput) :
    s.readToR0 ir = (s.raiseInputExhausted ir).setWait none := by
  simp only [State.readToR0, h]

theorem State.readToR0_noAnswer {s : State} (ir : Word) (h : s.consoleAnswer = .noAnswer) :
    s.readToR0 ir = s.setWait (some ir) := by
  simp only [State.readToR0, h]

/-- A byte is answered exactly where the input holds one at the input position. -/
theorem State.consoleAnswer_byte_iff {s : State} {b : Byte} :
    s.consoleAnswer = .byte b ↔ s.input[s.inPos]? = some b := by
  unfold State.consoleAnswer
  split
  · simp_all
  · split <;> simp_all

/-- Everything a console read can do (43_trap.md R83, 60_exceptions.md R100). -/
theorem State.readToR0_cases (s : State) (ir : Word) :
    (∃ b, s.consoleAnswer = .byte b ∧ s.readToR0 ir = (s.consumeByte.writeReg 0 (zext b)).setWait none) ∨
      (s.consoleAnswer = .endOfInput ∧ s.readToR0 ir = (s.raiseInputExhausted ir).setWait none) ∨
      (s.consoleAnswer = .noAnswer ∧ s.readToR0 ir = s.setWait (some ir)) := by
  cases h : s.consoleAnswer with
  | byte b => exact .inl ⟨b, rfl, s.readToR0_byte ir h⟩
  | endOfInput => exact .inr (.inl ⟨rfl, s.readToR0_endOfInput ir h⟩)
  | noAnswer => exact .inr (.inr ⟨rfl, s.readToR0_noAnswer ir h⟩)

/-- A console read leaves memory, PC, COND, the input and the output as they are. -/
theorem State.readToR0_frame (s : State) (ir : Word) :
    (s.readToR0 ir).mem = s.mem ∧ (s.readToR0 ir).pc = s.pc ∧ (s.readToR0 ir).cond = s.cond ∧
      (s.readToR0 ir).input = s.input ∧ (s.readToR0 ir).inputEnded = s.inputEnded ∧ (s.readToR0 ir).out = s.out := by
  rcases s.readToR0_cases ir with ⟨b, -, h⟩ | ⟨-, h⟩ | ⟨-, h⟩ <;> simp [h]

/-- A console read writes no register but R0. -/
theorem State.readToR0_readReg (s : State) (ir : Word) {r : Reg} (hr : r ≠ 0) :
    (s.readToR0 ir).readReg r = s.readReg r := by
  rcases s.readToR0_cases ir with ⟨b, -, h⟩ | ⟨-, h⟩ | ⟨-, h⟩ <;> simp [h, hr]

/-! ## Strings -/

/-- Every address is some number of words, fewer than 65536, after a given one. -/
theorem Word.eq_add_ofNat (a b : Word) : ∃ j < Config.memorySize, b = a + BitVec.ofNat 16 j :=
  ⟨(b - a).toNat, (b - a).isLt, by
    rw [BitVec.ofNat_toNat, BitVec.setWidth_eq, BitVec.add_comm, BitVec.sub_add_cancel]⟩

/-- Everything writing a string can do: it appends bytes, or memory has no zero word and it never ends. -/
theorem State.writeString_cases (s : State) (sent : Word → List Byte) :
    (∃ ws, s.mem.stringWords Config.memorySize (s.readReg 0) = some ws ∧
      s.writeString sent = .next (s.consoleWrite (ws.flatMap sent))) ∨
    ((∀ a, s.readMem a ≠ 0) ∧ s.writeString sent = .fault .endlessString) := by
  unfold State.writeString
  split
  · exact .inl ⟨_, ‹_›, rfl⟩
  · refine .inr ⟨fun a => ?_, rfl⟩
    obtain ⟨j, hj, rfl⟩ := Word.eq_add_ofNat (s.readReg 0) a
    exact Memory.stringWords_none ‹_› j hj

/-! ## TRAP -/

/-- The vectors outside 0x20-0x25 are those of no service (43_trap.md R89). -/
theorem TrapService.ofVector_none_iff (v : Byte) :
    TrapService.ofVector v = none ↔ v.toNat < 0x20 ∨ 0x25 < v.toNat := by
  revert v; decide +kernel

/-- A state that TRAP's service leaves, by vector: everything a TRAP that ends can do, from the state after a link if any. -/
inductive TrapNext (ir : Word) (v : Byte) (s : State) : State → Prop where
  | getc : v = 0x20 → TrapNext ir v s (s.readToR0 ir)
  | input : v = 0x23 → TrapNext ir v s ((s.consoleWrite promptBytes).readToR0 ir)
  | write (bs : List Byte) : v = 0x21 ∨ v = 0x22 ∨ v = 0x24 → TrapNext ir v s (s.consoleWrite bs)
  | halt : v = 0x25 → TrapNext ir v s (s.consoleWrite noticeBytes).halt
  | undefined : TrapService.ofVector v = none → TrapNext ir v s (s.raiseUndefinedTrap ir)

/-- Everything TRAP can do (43_trap.md R81): a next state of `TrapNext`, or an endless string. -/
theorem trapWithLink_cases (links : Bool) (x : BitVec 4) (v : Byte) (s : State) :
    (∃ t, TrapNext (encode (.trap x v)) v (if links then s.link else s) t ∧ trapWithLink links x v s = .next t) ∨
    ((v = 0x22 ∨ v = 0x24) ∧ (∀ a, s.readMem a ≠ 0) ∧ trapWithLink links x v s = .fault .endlessString) := by
  have hmem : ∀ a, (if links then s.link else s).readMem a = s.readMem a := by cases links <;> exact fun _ => rfl
  unfold trapWithLink
  generalize (if links then s.link else s) = u at hmem ⊢
  cases hv : TrapService.ofVector v with
  | none => exact .inl ⟨_, .undefined hv, rfl⟩
  | some k =>
    unfold TrapService.ofVector at hv
    split_ifs at hv <;> cases hv
    · exact .inl ⟨_, .getc ‹_›, rfl⟩
    · exact .inl ⟨_, .write _ (.inl ‹_›), rfl⟩
    · rcases u.writeString_cases putsBytes with ⟨ws, -, h⟩ | ⟨hz, h⟩
      · exact .inl ⟨_, .write _ (.inr (.inl ‹_›)), h⟩
      · exact .inr ⟨.inl ‹_›, fun a => hmem a ▸ hz a, h⟩
    · exact .inl ⟨_, .input ‹_›, rfl⟩
    · rcases u.writeString_cases putspBytes with ⟨ws, -, h⟩ | ⟨hz, h⟩
      · exact .inl ⟨_, .write _ (.inr (.inr ‹_›)), h⟩
      · exact .inr ⟨.inr ‹_›, fun a => hmem a ▸ hz a, h⟩
    · exact .inl ⟨_, .halt ‹_›, rfl⟩

/-- TRAP with the spec's parameter: the service its vector selects, no link (43_trap.md R81, R82). -/
theorem exec_trap (x : BitVec 4) (v : Byte) (s : State) :
    exec (.trap x v) s =
      match TrapService.ofVector v with
      | some .getc => trapGetc (encode (.trap x v)) s
      | some .out => trapOut s
      | some .puts => trapPuts s
      | some .input => trapIn (encode (.trap x v)) s
      | some .putsp => trapPutsp s
      | some .halt => trapHalt s
      | none => trapUndefined (encode (.trap x v)) s :=
  rfl

/-- With the spec's parameter, a TRAP that ends leaves a state of `TrapNext`. -/
theorem execTrap_next {x : BitVec 4} {v : Byte} {s t : State} (h : execTrap x v s = .next t) :
    TrapNext (encode (.trap x v)) v s t := by
  rcases trapWithLink_cases trapLinks x v s with ⟨u, hu, he⟩ | ⟨-, -, he⟩
  · rw [execTrap, he] at h
    cases h
    exact hu
  · rw [execTrap, he] at h
    cases h

/-! ## exec and step -/

/-- Everything an instruction that ends can do, by its shape: a result in a register with the flags, a word stored, a
transfer of control, a TRAP service, or IllegalOpcode. -/
inductive ExecNext (s : State) : Instr → State → Prop where
  | result {i : Instr} (dr : Reg) (v : Word) : updatesFlags i = true → (∀ r, mayWriteReg i r = (r == dr)) →
      transfersControl i = false → storedWord i s = none → mayWriteConsole i = false → isConsoleRead i = false →
      ExecNext s i (s.writeResult dr v)
  | store {i : Instr} (a v : Word) : storedWord i s = some (a, v) → updatesFlags i = false →
      transfersControl i = false → mayWriteConsole i = false → isConsoleRead i = false →
      ExecNext s i (s.writeMem a v)
  | branch (m : BitVec 3) (off : Word) : ExecNext s (.branch m off) (if condHolds m s.cond then s.setPc (s.pc + off) else s)
  | jump (h : BitVec 3) (b : Reg) (l : BitVec 6) : ExecNext s (.jump h b l) (s.setPc (s.readReg b))
  | jsr (off : Word) : ExecNext s (.jumprJsr off) (s.link.setPc (s.pc + off))
  | jsrr (h : BitVec 2) (b : Reg) (l : BitVec 6) : ExecNext s (.jumprJsrr h b l) (s.link.setPc (s.link.readReg b))
  | trap (x : BitVec 4) (v : Byte) {t : State} : TrapNext (encode (.trap x v)) v s t → ExecNext s (.trap x v) t
  | res (x : BitVec 12) : ExecNext s (.res x) (s.raiseIllegalOpcode (encode (.res x)))
  | rti (x : BitVec 12) : ExecNext s (.rti x) (s.raiseIllegalOpcode (encode (.rti x)))

/-- An instruction that ends does what its shape says. -/
theorem exec_next {i : Instr} {s t : State} (h : exec i s = .next t) : ExecNext s i t := by
  cases i with
  | trap x v => exact .trap x v (execTrap_next h)
  | branch m off => cases h; exact .branch m off
  | jump x b y => cases h; exact .jump x b y
  | jumprJsr off => cases h; exact .jsr off
  | jumprJsrr x b y => cases h; exact .jsrr x b y
  | res x => cases h; exact .res x
  | rti x => cases h; exact .rti x
  | store _ _ | storei _ _ | storer _ _ _ => cases h; exact .store _ _ rfl rfl rfl rfl rfl
  | addRegister _ _ _ _ | addImmediate _ _ _ | andRegister _ _ _ _ | andImmediate _ _ _ | not _ _ _ | load _ _
  | loadi _ _ | loadr _ _ _ | lea _ _ => cases h; exact .result _ _ rfl (fun _ => rfl) rfl rfl rfl rfl

/-- Everything a step that has a next state can do (30_encoding.md R48): the machine is RUNNING, and it goes on with the
console read it waits for, or executes the instruction at PC. -/
theorem step_next {s t : State} (h : step s = .next t) :
    s.run = .running ∧
      ((∃ ir, s.wait = some ir ∧ t = s.readToR0 ir) ∨
        (s.wait = none ∧ exec (decodeWord s.fetchWord) s.afterFetch = .next t)) := by
  unfold step at h
  split at h
  · cases h
  · cases h
  · refine ⟨‹_›, ?_⟩
    split at h
    · cases h; exact .inl ⟨_, ‹_›, rfl⟩
    · exact .inr ⟨‹_›, h⟩

end Sys2Proof.Machine
end

