-- ==== Sys2Proof/Laws/PerInstr.lean ====
section
/-! SUPPORT. Statements for all instructions, one lemma per constructor of Instr. Family OpcodeField: bits 15-12 of an
instruction's word are the number of its class (30_encoding.md R50, R54). -/

namespace Sys2Proof.Laws.OpcodeField

/-- The class an instruction belongs to (30_encoding.md R54). -/
def classOf : Instr → Opcode
  | .branch _ _ => .branch
  | .addRegister _ _ _ _ => .add
  | .addImmediate _ _ _ => .add
  | .load _ _ => .load
  | .store _ _ => .store
  | .jumprJsr _ => .jumpr
  | .jumprJsrr _ _ _ => .jumpr
  | .andRegister _ _ _ _ => .and
  | .andImmediate _ _ _ => .and
  | .loadr _ _ _ => .loadr
  | .storer _ _ _ => .storer
  | .rti _ => .rti
  | .not _ _ _ => .not
  | .loadi _ _ => .loadi
  | .storei _ _ => .storei
  | .jump _ _ _ => .jump
  | .res _ => .res
  | .lea _ _ => .lea
  | .trap _ _ => .trap

/-- Bits 15-12 of the instruction's word are its class's number. -/
def Statement (i : Instr) : Prop := (encode i).extractLsb' 12 4 = (classOf i).nibble

theorem branch (cond : BitVec 3) (off : Word) : Statement (.branch cond off) := (fields_pcrel rfl).1
theorem addRegister (dr sr1 : Reg) (x : BitVec 2) (sr2 : Reg) : Statement (.addRegister dr sr1 x sr2) := (fields_opr_r rfl).1
theorem addImmediate (dr sr1 : Reg) (imm : Word) : Statement (.addImmediate dr sr1 imm) := (fields_opr_i rfl).1
theorem load (dr : Reg) (off : Word) : Statement (.load dr off) := (fields_pcrel rfl).1
theorem store (sr : Reg) (off : Word) : Statement (.store sr off) := (fields_pcrel rfl).1
theorem jumprJsr (off : Word) : Statement (.jumprJsr off) := (fields_jsr rfl).1
theorem jumprJsrr (x : BitVec 2) (baseR : Reg) (y : BitVec 6) : Statement (.jumprJsrr x baseR y) := (fields_jsrr rfl).1
theorem andRegister (dr sr1 : Reg) (x : BitVec 2) (sr2 : Reg) : Statement (.andRegister dr sr1 x sr2) := (fields_opr_r rfl).1
theorem andImmediate (dr sr1 : Reg) (imm : Word) : Statement (.andImmediate dr sr1 imm) := (fields_opr_i rfl).1
theorem loadr (dr baseR : Reg) (off : Word) : Statement (.loadr dr baseR off) := (fields_base rfl).1
theorem storer (sr baseR : Reg) (off : Word) : Statement (.storer sr baseR off) := (fields_base rfl).1
theorem rti (x : BitVec 12) : Statement (.rti x) := (fields_none rfl).1
theorem not (dr sr : Reg) (x : BitVec 6) : Statement (.not dr sr x) := (fields_base rfl).1
theorem loadi (dr : Reg) (off : Word) : Statement (.loadi dr off) := (fields_pcrel rfl).1
theorem storei (sr : Reg) (off : Word) : Statement (.storei sr off) := (fields_pcrel rfl).1
theorem jump (x : BitVec 3) (baseR : Reg) (y : BitVec 6) : Statement (.jump x baseR y) := (fields_base rfl).1
theorem res (x : BitVec 12) : Statement (.res x) := (fields_none rfl).1
theorem lea (dr : Reg) (off : Word) : Statement (.lea dr off) := (fields_pcrel rfl).1
theorem trap (x : BitVec 4) (v : Byte) : Statement (.trap x v) := (fields_trap rfl).1

end Sys2Proof.Laws.OpcodeField
end

