-- ==== Sys2Proof/Tests/Slice0.lean ====
section
/-! SUPPORT. The model's own tests: ill-formed terms refused, words of the spec decoded, one step on small states with the
results of 95_test_vectors.md, and for every statement with hypotheses a state and operands that meet them. -/

namespace Sys2Proof.Tests

open Sys2Proof Sys2Proof.Machine Sys2Proof.Claims

/-! ## WellFormed: for each check an ill-formed term it refuses, and the ends of the range it accepts (30_encoding.md R52) -/

theorem test_wellFormed_addImmediate :
    wellFormed (.addImmediate 0 0 16) = false ∧ wellFormed (.addImmediate 0 0 (-17)) = false ∧
      wellFormed (.addImmediate 0 0 15) = true ∧ wellFormed (.addImmediate 0 0 (-16)) = true := by decide

theorem test_wellFormed_andImmediate :
    wellFormed (.andImmediate 0 0 16) = false ∧ wellFormed (.andImmediate 0 0 (-17)) = false ∧
      wellFormed (.andImmediate 0 0 15) = true ∧ wellFormed (.andImmediate 0 0 (-16)) = true := by decide

theorem test_wellFormed_loadr :
    wellFormed (.loadr 0 0 32) = false ∧ wellFormed (.loadr 0 0 (-33)) = false ∧
      wellFormed (.loadr 0 0 31) = true ∧ wellFormed (.loadr 0 0 (-32)) = true := by decide

theorem test_wellFormed_storer :
    wellFormed (.storer 0 0 32) = false ∧ wellFormed (.storer 0 0 (-33)) = false ∧
      wellFormed (.storer 0 0 31) = true ∧ wellFormed (.storer 0 0 (-32)) = true := by decide

theorem test_wellFormed_branch :
    wellFormed (.branch 7 256) = false ∧ wellFormed (.branch 7 (-257)) = false ∧
      wellFormed (.branch 7 255) = true ∧ wellFormed (.branch 7 (-256)) = true := by decide

theorem test_wellFormed_load :
    wellFormed (.load 0 256) = false ∧ wellFormed (.load 0 (-257)) = false ∧
      wellFormed (.load 0 255) = true ∧ wellFormed (.load 0 (-256)) = true := by decide

theorem test_wellFormed_store :
    wellFormed (.store 0 256) = false ∧ wellFormed (.store 0 (-257)) = false ∧
      wellFormed (.store 0 255) = true ∧ wellFormed (.store 0 (-256)) = true := by decide

theorem test_wellFormed_loadi :
    wellFormed (.loadi 0 256) = false ∧ wellFormed (.loadi 0 (-257)) = false ∧
      wellFormed (.loadi 0 255) = true ∧ wellFormed (.loadi 0 (-256)) = true := by decide

theorem test_wellFormed_storei :
    wellFormed (.storei 0 256) = false ∧ wellFormed (.storei 0 (-257)) = false ∧
      wellFormed (.storei 0 255) = true ∧ wellFormed (.storei 0 (-256)) = true := by decide

theorem test_wellFormed_lea :
    wellFormed (.lea 0 256) = false ∧ wellFormed (.lea 0 (-257)) = false ∧
      wellFormed (.lea 0 255) = true ∧ wellFormed (.lea 0 (-256)) = true := by decide

theorem test_wellFormed_jumprJsr :
    wellFormed (.jumprJsr 1024) = false ∧ wellFormed (.jumprJsr (-1025)) = false ∧
      wellFormed (.jumprJsr 1023) = true ∧ wellFormed (.jumprJsr (-1024)) = true := by decide

/-! ## Decoding: words of 95_test_vectors.md (sections X, V and the programs), each with the instruction it is there -/

theorem test_decode_branch_V21 : decodeTableWord 16 0x0BFE = some (.branch 0b101 (-2)) ∧ encode (.branch 0b101 (-2)) = 0x0BFE := by decide
theorem test_decode_addRegister_V7 : decodeTableWord 16 0x129B = some (.addRegister 1 2 3 3) ∧ encode (.addRegister 1 2 3 3) = 0x129B := by decide
theorem test_decode_addImmediate_V5 : decodeTableWord 16 0x14B0 = some (.addImmediate 2 2 (-16)) ∧ encode (.addImmediate 2 2 (-16)) = 0x14B0 := by decide
theorem test_decode_load_V35 : decodeTableWord 16 0x23FE = some (.load 1 (-2)) ∧ encode (.load 1 (-2)) = 0x23FE := by decide
theorem test_decode_store_V44 : decodeTableWord 16 0x37FD = some (.store 3 (-3)) ∧ encode (.store 3 (-3)) = 0x37FD := by decide
theorem test_decode_jumprJsr_V28 : decodeTableWord 16 0x4C00 = some (.jumprJsr (-1024)) ∧ encode (.jumprJsr (-1024)) = 0x4C00 := by decide
theorem test_decode_jumprJsrr_V32 : decodeTableWord 16 0x4640 = some (.jumprJsrr 3 1 0) ∧ encode (.jumprJsrr 3 1 0) = 0x4640 := by decide
theorem test_decode_andRegister_V12 : decodeTableWord 16 0x56C4 = some (.andRegister 3 3 0 4) ∧ encode (.andRegister 3 3 0 4) = 0x56C4 := by decide
theorem test_decode_andImmediate_V11 : decodeTableWord 16 0x52B0 = some (.andImmediate 1 2 (-16)) ∧ encode (.andImmediate 1 2 (-16)) = 0x52B0 := by decide
theorem test_decode_loadr_V40 : decodeTableWord 16 0x6720 = some (.loadr 3 4 (-32)) ∧ encode (.loadr 3 4 (-32)) = 0x6720 := by decide
theorem test_decode_storer_V48 : decodeTableWord 16 0x7381 = some (.storer 1 6 1) ∧ encode (.storer 1 6 1) = 0x7381 := by decide
theorem test_decode_rti_V69 : decodeTableWord 16 0x8FFF = some (.rti 0xFFF) ∧ encode (.rti 0xFFF) = 0x8FFF := by decide
theorem test_decode_not_V13 : decodeTableWord 16 0x92BF = some (.not 1 2 0x3F) ∧ encode (.not 1 2 0x3F) = 0x92BF := by decide
theorem test_decode_loadi_V36 : decodeTableWord 16 0xA202 = some (.loadi 1 2) ∧ encode (.loadi 1 2) = 0xA202 := by decide
theorem test_decode_storei_V47 : decodeTableWord 16 0xB201 = some (.storei 1 1) ∧ encode (.storei 1 1) = 0xB201 := by decide
theorem test_decode_jump_V26 : decodeTableWord 16 0xCEBF = some (.jump 7 2 0x3F) ∧ encode (.jump 7 2 0x3F) = 0xCEBF := by decide
theorem test_decode_res_V66 : decodeTableWord 16 0xD000 = some (.res 0) ∧ encode (.res 0) = 0xD000 := by decide
theorem test_decode_lea_V41 : decodeTableWord 16 0xE1FF = some (.lea 0 (-1)) ∧ encode (.lea 0 (-1)) = 0xE1FF := by decide
theorem test_decode_trap_V64 : decodeTableWord 16 0xF120 = some (.trap 1 0x20) ∧ encode (.trap 1 0x20) = 0xF120 := by decide

/-- No word is no instruction, and more bits than a word are none. -/
theorem test_decode_rejects : decode [] = .error .noWord ∧ decodeTableWord 32 0x1642 = none := by decide

/-! ## Sign extension (S1 to S15) and classification (K1 to K6) -/

theorem test_sext : sext (0x0F#5) = 0x000F ∧ sext (0x10#5) = 0xFFF0 ∧ sext (0x20#6) = 0xFFE0 ∧ sext (0xFF#9) = 0x00FF ∧
    sext (0x100#9) = 0xFF00 ∧ sext (0x400#11) = 0xFC00 ∧ sext (0#1) = 0x0000 ∧ sext (1#1) = 0xFFFF ∧
    sext (0x7FFF#16) = 0x7FFF ∧ sext (0x8000#16) = 0x8000 := by decide

theorem test_classify : (classify 0x0000).bits = 0x0002 ∧ (classify 0x0001).bits = 0x0001 ∧ (classify 0x7FFF).bits = 0x0001 ∧
    (classify 0x8000).bits = 0x0004 ∧ (classify 0xFFFF).bits = 0x0004 ∧ (classify 0x0100).bits = 0x0001 := by decide

/-! ## One step, with the results of 95_test_vectors.md (the vector is in the name) -/

/-- The state with a word at an address and PC there. -/
def placed (pc w : Word) (s : State) : State := { s with pc := pc, mem := s.mem.write pc w }

/-- The state reset leaves, with COND, words of memory and a console input. -/
def base (cond : Word) (mem : List (Word × Word)) (input : List Byte) : State :=
  { State.reset with cond := cond, input := input, mem := mem.foldl (fun m c => m.write c.1 c.2) [] }

/-- A view of the next state, where there is one. -/
def look {α : Type} (f : State → α) : Result → Option α
  | .next t => some (f t)
  | .fault _ => none
  | .refused _ => none

theorem test_addRegister_V1 :
    look (fun t => (t.readReg 3, t.cond, t.pc)) (step (placed 0x3000 0x1642 (((base 0 [] []).writeReg 1 0x0005).writeReg 2 0x0003))) =
      some (0x0008, 0x0001, 0x3001) := by decide

theorem test_addRegister_V4 :
    look (fun t => (t.readReg 1, t.cond, t.pc)) (step (placed 0x3000 0x1241 ((base 0 [] []).writeReg 1 0x8000))) =
      some (0x0000, 0x0002, 0x3001) := by decide

theorem test_addImmediate_V2 :
    look (fun t => (t.readReg 0, t.cond, t.pc)) (step (placed 0x3000 0x1021 ((base 0 [] []).writeReg 0 0xFFFF))) =
      some (0x0000, 0x0002, 0x3001) := by decide

theorem test_addImmediate_V3 :
    look (fun t => (t.readReg 0, t.cond)) (step (placed 0x3000 0x1021 ((base 0 [] []).writeReg 0 0x7FFF))) =
      some (0x8000, 0x0004) := by decide

theorem test_andRegister_V8 :
    look (fun t => (t.readReg 2, t.cond)) (step (placed 0x3000 0x5401 (((base 0 [] []).writeReg 0 0x00F0).writeReg 1 0x0030))) =
      some (0x0030, 0x0001) := by decide

theorem test_andRegister_V12 :
    look (fun t => (t.readReg 3, t.cond)) (step (placed 0x3000 0x56C4 (((base 0 [] []).writeReg 3 0x8001).writeReg 4 0xC000))) =
      some (0x8000, 0x0004) := by decide

theorem test_andImmediate_V9 :
    look (fun t => (t.readReg 0, t.cond)) (step (placed 0x3000 0x5020 ((base 4 [] []).writeReg 0 0x1234))) =
      some (0x0000, 0x0002) := by decide

theorem test_andImmediate_V11 :
    look (fun t => (t.readReg 1, t.cond)) (step (placed 0x3000 0x52B0 ((base 0 [] []).writeReg 2 0xABCD))) =
      some (0xABC0, 0x0004) := by decide

theorem test_not_V13 :
    look (fun t => (t.readReg 1, t.cond)) (step (placed 0x3000 0x92BF ((base 0 [] []).writeReg 2 0x00FF))) =
      some (0xFF00, 0x0004) := by decide

theorem test_not_V15 :
    look (fun t => (t.readReg 0, t.cond)) (step (placed 0x3000 0x9000 ((base 0 [] []).writeReg 0 0x8000))) =
      some (0x7FFF, 0x0001) := by decide

theorem test_branch_V16 :
    look (fun t => (t.pc, t.cond)) (step (placed 0x3000 0x0405 (base 2 [] []))) =
      some (0x3006, 0x0002) := by decide

theorem test_branch_V18_never_before_flags :
    look (fun t => (t.pc, t.cond)) (step (placed 0x3000 0x0E05 (base 0 [] []))) =
      some (0x3001, 0x0000) := by decide

theorem test_jump_V26 :
    look (fun t => (t.pc, t.readReg 7)) (step (placed 0x3000 0xCEBF ((base 0 [] []).writeReg 2 0x1234))) =
      some (0x1234, 0x0000) := by decide

theorem test_jumprJsr_V28 :
    look (fun t => (t.pc, t.readReg 7, t.cond)) (step (placed 0x3000 0x4C00 (base 0 [] []))) =
      some (0x2C01, 0x3001, 0x0000) := by decide

theorem test_jumprJsrr_V31 :
    look (fun t => (t.pc, t.readReg 7)) (step (placed 0x3000 0x41C0 ((base 0 [] []).writeReg 7 0x6000))) =
      some (0x3001, 0x3001) := by decide

theorem test_jumprJsrr_V32 :
    look (fun t => (t.pc, t.readReg 7)) (step (placed 0xFFFF 0x4640 (((base 0 [] []).writeReg 1 0x0123).writeReg 7 0x5555))) =
      some (0x0123, 0x0000) := by decide

theorem test_load_V34 :
    look (fun t => (t.readReg 5, t.cond, t.pc)) (step (placed 0x3000 0x2BFF (base 0 [] []))) =
      some (0x2BFF, 0x0001, 0x3001) := by decide

theorem test_load_V35 :
    look (fun t => (t.readReg 1, t.cond, t.pc)) (step (placed 0x0000 0x23FE ((base 0 [] []).writeReg 1 0x1111))) =
      some (0x0000, 0x0002, 0x0001) := by decide

theorem test_loadi_V36 :
    look (fun t => (t.readReg 1, t.cond)) (step (placed 0x3000 0xA202 (base 0 [(0x3003, 0x4000), (0x4000, 0x8001)] []))) =
      some (0x8001, 0x0004) := by decide

theorem test_loadr_V40 :
    look (fun t => (t.readReg 3, t.cond)) (step (placed 0x3000 0x6720 ((base 0 [(0xFFF0, 0x7FFF)] []).writeReg 4 0x0010))) =
      some (0x7FFF, 0x0001) := by decide

theorem test_loadr_V39 :
    look (fun t => (t.readReg 2, t.cond)) (step (placed 0x3000 0x649F ((base 0 [(0x401F, 0x0042)] []).writeReg 2 0x4000))) =
      some (0x0042, 0x0001) := by decide

theorem test_lea_V43 :
    look (fun t => (t.readReg 2, t.cond, t.pc)) (step (placed 0xFFFF 0xE400 ((base 0 [] []).writeReg 2 0x1111))) =
      some (0x0000, 0x0002, 0x0000) := by decide

theorem test_store_V44 :
    look (fun t => (t.readMem 0x2FFE, t.cond, t.pc)) (step (placed 0x3000 0x37FD ((base 1 [] []).writeReg 3 0xBEEF))) =
      some (0xBEEF, 0x0001, 0x3001) := by decide

theorem test_storei_V47 :
    look (fun t => (t.readMem 0x3002, t.cond)) (step (placed 0x3000 0xB201 ((base 0 [(0x3002, 0x3002)] []).writeReg 1 0x9999))) =
      some (0x9999, 0x0000) := by decide

theorem test_storer_V48 :
    look (fun t => (t.readMem 0x0000, t.cond)) (step (placed 0x3000 0x7381 (((base 0 [] []).writeReg 1 0x4242).writeReg 6 0xFFFF))) =
      some (0x4242, 0x0000) := by decide

theorem test_storer_V49 :
    look (fun t => (t.readMem 0x4000, t.readReg 6)) (step (placed 0x3000 0x7D80 ((base 0 [] []).writeReg 6 0x4000))) =
      some (0x4000, 0x4000) := by decide

theorem test_res_V67 :
    look (fun t => (t.run, t.pc)) (step (placed 0x3000 0xDFFF (base 0 [] []))) =
      some (.faulted (.illegalOpcode 0xDFFF 0x3000), 0x3001) := by decide

theorem test_rti_V68 :
    look (fun t => (t.run, t.pc)) (step (placed 0x3000 0x8000 (base 0 [] []))) =
      some (.faulted (.illegalOpcode 0x8000 0x3000), 0x3001) := by decide

theorem test_trap_getc_V50 :
    look (fun t => (t.readReg 0, t.cond, t.inPos, t.out, t.pc)) (step (placed 0x3000 0xF020 ((base 4 [] [0x41]).writeReg 0 0xFFFF))) =
      some (0x0041, 0x0004, 1, [], 0x3001) := by decide

theorem test_trap_getc_V51 :
    look (fun t => (t.run, t.readReg 0, t.pc)) (step (placed 0x3000 0xF020 ((base 0 [] []).writeReg 0 0x1234))) =
      some (.faulted (.inputExhausted 0x20 0xF020 0x3000), 0x1234, 0x3001) := by decide

theorem test_trap_out_V52 :
    look (fun t => (t.out, t.readReg 0)) (step (placed 0x3000 0xF021 ((base 0 [] []).writeReg 0 0x1248))) =
      some ([0x48], 0x1248) := by decide

theorem test_trap_puts_V54 :
    look (fun t => (t.out, t.readReg 0)) (step (placed 0x3000 0xF022 ((base 0 [(0x4000, 0x0100), (0x4001, 0x0141)] []).writeReg 0 0x4000))) =
      some ([0x00, 0x41], 0x4000) := by decide +kernel

theorem test_trap_puts_V55 :
    look (fun t => (t.out, t.pc)) (step (placed 0x3000 0xF022 ((base 0 [(0x0000, 0x0042), (0xFFFF, 0x0041)] []).writeReg 0 0xFFFF))) =
      some ([0x41, 0x42], 0x3001) := by decide +kernel

theorem test_trap_in_V57 :
    look (fun t => (t.readReg 0, t.inPos, t.out)) (step (placed 0x3000 0xF023 (base 0 [] [0x37]))) =
      some (0x0037, 1, Config.inPrompt) := rfl

theorem test_trap_in_V58 :
    look (fun t => (t.run, t.out)) (step (placed 0x3000 0xF023 (base 0 [] []))) =
      some (.faulted (.inputExhausted 0x23 0xF023 0x3000), Config.inPrompt) := rfl

theorem test_trap_putsp_V59 :
    look (fun t => (t.out, t.pc)) (step (placed 0x3000 0xF024 ((base 0 [(0x4000, 0x6948), (0x4001, 0x0021)] []).writeReg 0 0x4000))) =
      some ([0x48, 0x69, 0x21], 0x3001) := by decide +kernel

theorem test_trap_putsp_V60 :
    look (fun t => (t.out, t.pc)) (step (placed 0x3000 0xF024 ((base 0 [(0x4000, 0x4100)] []).writeReg 0 0x4000))) =
      some ([0x00, 0x41], 0x3001) := by decide +kernel

theorem test_trap_halt_V61 :
    look (fun t => (t.run, t.pc, t.out)) (step (placed 0x3005 0xF025 (base 0 [(0x3006, 0x1021)] []))) =
      some (.halted, 0x3006, Config.haltNotice) := rfl

theorem test_trap_undefined_V62 :
    look (fun t => (t.run, t.pc)) (step (placed 0x3000 0xF026 (base 0 [] []))) =
      some (.faulted (.undefinedTrap 0x26 0xF026 0x3000), 0x3001) := by decide

theorem test_fetch_wraps_V70 :
    look (fun t => (t.pc, t.cond)) (step (placed 0xFFFF 0x0000 (base 0 [] []))) =
      some (0x0000, 0x0000) := by decide
/-! ## Witnesses: for every statement with hypotheses, a state and operands that meet them (the statement is in the name) -/

/-- A GETC with a byte to read, one at the end of the input, and one whose host does not answer. -/
def inputByte : State := base 0x0001 [] [0x41]
def inputAtEnd : State := base 0x0001 [] []
def inputUnanswered : State := { inputAtEnd with inputEnded := false }

/-- "Hi" at 0x4000 with R0 pointing there, and an empty string at 0x4002. -/
def stringState : State := (base 0 [(0x4000, 0x0048), (0x4001, 0x6900)] []).writeReg 0 0x4000

/-- Every word from `k` on, `n` of them, is 1. -/
def ones : Nat → Nat → Memory
  | _, 0 => []
  | k, n + 1 => (k, 1) :: ones (k + 1) n

theorem ones_read (k n a : Nat) (h : k ≤ a) (h' : a < k + n) : (ones k n).readAt a = 1 := by
  induction n generalizing k with
  | zero => omega
  | succ n ih =>
    simp only [ones, Memory.readAt]
    split
    · rfl
    · exact ih (k + 1) (by omega) (by omega)

/-- A state with no zero word in memory. -/
def fullState : State := { State.reset with mem := ones 0 65536 }

theorem fullState_read (a : Word) : fullState.readMem a ≠ 0 := by
  have h : fullState.readMem a = 1 := ones_read 0 65536 a.toNat (Nat.zero_le _) (by have := a.isLt; omega)
  rw [h]; decide

theorem witness_SignExtensionCopiesSignBit :
    (1 ≤ 1 ∧ 1 ≤ 16 ∧ (0#1).getLsbD 0 = false ∧ (1#1).getLsbD 0 = true) ∧
    (16 ≤ 16 ∧ (0x7FFF#16).getLsbD 15 = false ∧ (0x8000#16).getLsbD 15 = true) := by decide

theorem witness_DecodeOfEncodeIsIdentity :
    wellFormed (.addImmediate 7 7 (-16)) = true ∧ wellFormed (.storer 7 7 (-32)) = true ∧
      wellFormed (.lea 7 (-256)) = true ∧ wellFormed (.jumprJsr (-1024)) = true := by decide

theorem witness_JumpByR7ReturnsAfterCall :
    ∃ t, exec (.jumprJsrr 0 7 0) (State.reset.setPc 0x3001) = .next t ∧ (t.setPc 0x5000).readReg 7 = t.readReg 7 :=
  ⟨_, rfl, rfl⟩

theorem witness_BranchWithEmptyMaskIsNoOp :
    State.reset.run = .running ∧ State.reset.wait = none ∧ State.reset.readMem State.reset.pc = 0x0000 := by decide

theorem witness_NoBranchTakenBeforeFirstFlagUpdate :
    (∃ s, State.start 0x3000 [0x0E01] [] = some s) ∧
    (∃ t, step State.reset = .next t) ∧ State.reset.cond = 0x0000 ∧
      updatesFlags (decodeWord (State.reset.readMem State.reset.pc)) = false :=
  ⟨⟨_, rfl⟩, ⟨_, rfl⟩, rfl, by decide⟩

theorem witness_StoreRule : stringState.mem.wf := by decide
theorem witness_StoreIndirectRule : (placed 0x3000 0xB000 stringState).mem.wf := by decide
theorem witness_StoreBaseRule : (placed 0xFFFF 0x7381 stringState).mem.wf := by decide

theorem witness_GetcRule :
    inputByte.consoleAnswer = .byte 0x41 ∧ inputAtEnd.consoleAnswer = .endOfInput ∧
      inputUnanswered.consoleAnswer = .noAnswer := by decide

theorem witness_InRule :
    (inputByte.consumeByte.consoleAnswer = .endOfInput) ∧ (base 0 [] [0x00]).consoleAnswer = .byte 0x00 ∧
      inputUnanswered.consoleAnswer = .noAnswer := by decide

theorem witness_HaltRule : ∃ t, exec (.trap 0 0x25) inputByte = .next t := ⟨_, rfl⟩

theorem witness_PutsRule :
    ((∀ j < 2, stringState.readMem (wordAfter (stringState.readReg 0) j) ≠ 0) ∧
      stringState.readMem (wordAfter (stringState.readReg 0) 2) = 0) ∧
    (State.reset.readMem (wordAfter (State.reset.readReg 0) 0) = 0) ∧ ∀ a, fullState.readMem a ≠ 0 :=
  ⟨by decide, by decide, fullState_read⟩

theorem witness_PutspRule :
    ((∀ j < 2, stringState.readMem (wordAfter (stringState.readReg 0) j) ≠ 0) ∧
      stringState.readMem (wordAfter (stringState.readReg 0) 2) = 0) ∧ ∀ a, fullState.readMem a ≠ 0 :=
  ⟨by decide, fullState_read⟩

theorem witness_UndefinedTrapRule :
    ((0x00 : Byte).toNat < 0x20 ∧ (0x1F : Byte).toNat < 0x20) ∧ 0x25 < (0x26 : Byte).toNat ∧ 0x25 < (0xFF : Byte).toNat := by
  decide

theorem witness_TrapWritesR7OnlyWhereTheParameterSaysSo :
    (∃ t, exec (.trap 0 0x21) State.reset = .next t) ∧ ∃ t, trapWithLink true 0 0x20 inputByte = .next t :=
  ⟨⟨_, rfl⟩, ⟨_, rfl⟩⟩

theorem witness_UnusedBitsAreIgnored :
    ∃ t, exec (.trap 0 0x20) inputByte = .next t ∧ t.wait = none ∧ ∀ f, t.run ≠ .faulted f :=
  ⟨_, rfl, rfl, (fun f h => by cases h)⟩

theorem witness_OnlyListedInstructionsWriteRegisters :
    (∃ t, exec (.trap 0 0x20) inputByte = .next t) ∧ mayWriteReg (.trap 0 0x20) 1 = false ∧
      mayWriteReg (.addRegister 2 0 0 0) 7 = false ∧ mayWriteReg (.store 0 0) 0 = false :=
  ⟨⟨_, rfl⟩, by decide⟩

theorem witness_OnlyFlagInstructionsTouchCond :
    ((∃ t, exec (.lea 0 0) State.reset = .next t) ∧ updatesFlags (.lea 0 0) = true) ∧
      (∃ t, exec (.jumprJsr 1) State.reset = .next t) ∧ updatesFlags (.jumprJsr 1) = false ∧
      ∀ m o, Instr.jumprJsr 1 ≠ .branch m o :=
  ⟨⟨⟨_, rfl⟩, rfl⟩, ⟨_, rfl⟩, rfl, by intro m o h; cases h⟩

theorem witness_CondIsOneHotAfterFlagUpdate :
    (∃ t, exec (.lea 0 0) State.reset = .next t) ∧ updatesFlags (.lea 0 0) = true ∧
      (∃ t, step inputByte = .next t) ∧ legalCond inputByte.cond ∧ inputByte.cond ≠ 0x0000 :=
  ⟨⟨_, rfl⟩, rfl, ⟨_, rfl⟩, by decide, by decide⟩

theorem witness_OnlyStoresWriteMemory :
    stringState.mem.wf ∧ (∃ t, exec (.store 0 (-1)) stringState = .next t) ∧
      storedWord (.store 0 (-1)) stringState = some (0xFFFF, 0x4000) ∧
      (∃ t, exec (.load 0 0) stringState = .next t) ∧ storedWord (.load 0 0) stringState = none :=
  ⟨by decide, ⟨_, rfl⟩, by decide, ⟨_, rfl⟩, rfl⟩

theorem witness_OnlyControlTransfersWritePc :
    (∃ t, exec (.lea 0 0) State.reset = .next t) ∧ transfersControl (.lea 0 0) = false ∧
      (∃ t, step (placed 0xFFFF 0xE400 State.reset) = .next t) ∧ (placed 0xFFFF 0xE400 State.reset).wait = none ∧
      transfersControl (decodeWord ((placed 0xFFFF 0xE400 State.reset).readMem 0xFFFF)) = false :=
  ⟨⟨_, rfl⟩, rfl, ⟨_, rfl⟩, rfl, by decide⟩

theorem witness_OnlyConsoleServicesMoveStreams :
    ((∃ t, exec (.trap 0 0x20) inputByte = .next t) ∧ inputByte.consoleAnswer = .byte 0x41 ∧
      isConsoleRead (.trap 0 0x20) = true ∧ mayWriteConsole (.trap 0 0x20) = false) ∧
    ((∃ t, exec (.trap 0 0x23) inputUnanswered = .next t) ∧ (∀ b, inputUnanswered.consoleAnswer ≠ .byte b) ∧
      isConsoleRead (.trap 0 0x23) = true) ∧
    (∃ t, exec (.trap 0 0x21) inputByte = .next t) ∧ isConsoleRead (.trap 0 0x21) = false :=
  ⟨⟨⟨_, rfl⟩, by decide⟩, ⟨⟨_, rfl⟩, (fun b h => by cases h), rfl⟩, ⟨_, rfl⟩, rfl⟩

theorem witness_OutputIsNeverRead : ∃ t, step (placed 0x3000 0xF023 inputByte) = .next t := ⟨_, rfl⟩

theorem witness_RunStateTransitions :
    State.reset.halt.run = .halted ∧
      (State.reset.raiseIllegalOpcode 0xD000).run = .faulted (.illegalOpcode 0xD000 0xFFFF) ∧
      (∃ t, exec (.trap 0 0x25) State.reset = .next t ∧ t.run = .halted) ∧ State.reset.run = .running ∧
      ∃ t, step (placed 0x3000 0xF025 State.reset) = .next t ∧ t.run = .halted :=
  ⟨rfl, by decide, ⟨_, rfl, rfl⟩, rfl, ⟨_, rfl, rfl⟩⟩

theorem witness_FaultKindsAndRecords :
    (∃ t f, exec (.rti 0) State.reset = .next t ∧ t.run = .faulted f) ∧
      (∃ t f, exec (.trap 0 0x1F) State.reset = .next t ∧ t.run = .faulted f) ∧
      (∃ t f, exec (.trap 0 0x23) inputAtEnd = .next t ∧ t.run = .faulted f) ∧ State.reset.run = .running ∧
      inputAtEnd.run = .running ∧ (placed 0x3000 0xDFFF inputAtEnd).wait = none ∧
      ∃ t f, step (placed 0x3000 0xDFFF inputAtEnd) = .next t ∧ t.run = .faulted f :=
  ⟨⟨_, _, rfl, rfl⟩, ⟨_, _, rfl, rfl⟩, ⟨_, _, rfl, rfl⟩, rfl, rfl, rfl, _, _, rfl, rfl⟩

theorem witness_FaultsArePrecise :
    ((placed 0xFFFF 0xF023 inputAtEnd).wait = none ∧
      (∃ t f, step (placed 0xFFFF 0xF023 inputAtEnd) = .next t ∧ t.run = .faulted f) ∧
      decodeWord ((placed 0xFFFF 0xF023 inputAtEnd).readMem 0xFFFF) = .trap 0 0x23) ∧
    ((∃ t f, step (placed 0x3000 0xD023 inputAtEnd) = .next t ∧ t.run = .faulted f) ∧
      ∀ x, decodeWord ((placed 0x3000 0xD023 inputAtEnd).readMem 0x3000) ≠ .trap x 0x23) ∧
    (inputAtEnd.setWait (some 0xF023)).wait ≠ none ∧
      ∃ t f, step (inputAtEnd.setWait (some 0xF023)) = .next t ∧ t.run = .faulted f :=
  ⟨⟨rfl, ⟨_, _, rfl, rfl⟩, by decide⟩, ⟨⟨_, _, rfl, rfl⟩, by decide⟩, by decide, _, _, rfl, rfl⟩

theorem witness_EveryInstructionCompletes : ∃ a, stringState.readMem a = 0 := ⟨0x4002, by decide⟩

theorem witness_StepExecutesDecodedWord :
    (stringState.run = .running ∧ stringState.wait = none) ∧ stringState.halt.run ≠ .running ∧
      ∃ t, step stringState = .next t :=
  ⟨by decide, by decide, _, rfl⟩

theorem witness_ConsoleReadAnswersTheNextInputByte :
    inputByte.input[inputByte.inPos]? = some 0x41 ∧
      (inputAtEnd.input.length ≤ inputAtEnd.inPos ∧ inputAtEnd.inputEnded = true) ∧
      inputUnanswered.input.length ≤ inputUnanswered.inPos ∧ inputUnanswered.inputEnded = false := by decide

theorem witness_ConsoleReadWaitsForTheAnswer :
    inputUnanswered.consoleAnswer = .noAnswer ∧
      (∀ s ∈ [inputUnanswered.setWait (some 0xF020), inputByte.setWait (some 0xF020), inputAtEnd.setWait (some 0xF023)],
        s.run = .running ∧ ∃ ir, s.wait = some ir) ∧
      (inputUnanswered.setWait (some 0xF020)).consoleAnswer = .noAnswer ∧
      (inputByte.setWait (some 0xF020)).consoleAnswer = .byte 0x41 ∧
      (inputAtEnd.setWait (some 0xF023)).consoleAnswer = .endOfInput :=
  ⟨rfl, by simp [inputUnanswered, inputByte, inputAtEnd, base, State.reset], rfl, rfl, rfl⟩

/-- ST R0,#0 writes the very next instruction word (42_load_store.md R78, vector V45). -/
theorem witness_StoreIsSeenByNextFetch :
    (placed 0x3000 0x3000 stringState).mem.wf ∧ (placed 0x3000 0x3000 stringState).run = .running ∧
      (placed 0x3000 0x3000 stringState).wait = none ∧
      ∃ t, step (placed 0x3000 0x3000 stringState) = .next t ∧
        storedWord (decodeWord ((placed 0x3000 0x3000 stringState).readMem 0x3000))
          { placed 0x3000 0x3000 stringState with pc := 0x3001 } = some (0x3001, 0x4000) ∧ (0x3001 : Word) = t.pc :=
  ⟨by decide, rfl, rfl, _, rfl, by decide, by decide⟩

theorem witness_CanonicalMemoriesAreEqualData :
    stringState.mem.wf ∧ ((Memory.write [] 0x4001 0x6900).write 0x4000 0x0048).wf ∧
      ∀ a, stringState.mem.read a = ((Memory.write [] 0x4001 0x6900).write 0x4000 0x0048).read a := by
  refine ⟨by decide, by decide, fun a => ?_⟩
  rw [show stringState.mem = (Memory.write [] 0x4001 0x6900).write 0x4000 0x0048 by decide]

theorem witness_LoaderPlacesImage :
    State.reset.mem.wf ∧ [0x0E01#16].length ≤ 65536 ∧ (List.replicate 65536 (0 : Word)).length ≤ 65536 ∧
      65536 < (List.replicate 65537 (0 : Word)).length ∧ ∃ s, State.start 0xFFFF [0x0E01, 0x1021] [0x41] = some s :=
  ⟨by decide, by decide, by rw [List.length_replicate], by rw [List.length_replicate]; exact Nat.lt_succ_self _, _, rfl⟩

theorem witness_ResetAndStartValues : [0x5020#16, 0xF025#16].length ≤ 65536 := by decide

/-- A state with a store at PC has the invariant, and its step runs. -/
theorem witness_StepKeepsInvariant :
    (placed 0x3000 0x3000 stringState).Inv ∧ ∃ t, step (placed 0x3000 0x3000 stringState) = .next t :=
  ⟨⟨by decide, by decide, Nat.zero_le _, (fun ir h => by cases h), (fun h => by cases h), (fun f h => by cases h)⟩, _, rfl⟩

theorem witness_LoadedRunsKeepInvariant :
    ∃ s t, State.start 0x3000 [0x1021, 0xF025] [] = some s ∧ Reaches s t ∧ t.pc = 0x3001 :=
  ⟨_, _, rfl, .next (.refl _) rfl, by decide⟩

/-- withFetchWord: the very next step after reset runs the word placed. -/
theorem test_withFetchWord :
    look (fun t => (t.readReg 0, t.pc)) (step (State.reset.withFetchWord 16 0x103F)) = some (0xFFFF, 0x0001) := by decide

end Sys2Proof.Tests
end

section
/-! ## Sign extension and zero extension, bit by bit (00_scope.md R12) -/

namespace Sys2Proof

/-- Extending a field whose sign bit is 0 keeps its value. -/
theorem toNat_sext_of_sign_clear {n : Nat} (hn : n ≤ 16) {v : BitVec n}
    (h : v.getLsbD (n - 1) = false) : (sext v).toNat = v.toNat := by
  have hmsb : v.msb = false := by rw [BitVec.msb_eq_getLsbD_last, h]
  rw [sext, BitVec.signExtend_eq_setWidth_of_msb_false hmsb, BitVec.toNat_setWidth_of_le hn]

/-- Extending a field whose sign bit is 1 sets every bit from bit N up: below bit N both sides read the field, from
bit N on both read 1. -/
theorem sext_of_sign_set {n : Nat} {v : BitVec n} (h : v.getLsbD (n - 1) = true) :
    sext v = BitVec.ofNat 16 v.toNat ||| (0xFFFF#16 <<< n) := by
  have hmsb : v.msb = true := by rw [BitVec.msb_eq_getLsbD_last, h]
  ext i hi
  rw [sext, BitVec.getElem_signExtend, BitVec.ofNat_toNat, show 0xFFFF#16 = BitVec.allOnes 16 from rfl]
  by_cases hin : i < n
  · simp [hin]
  · simp [hin, hmsb, -BitVec.reduceAllOnes]

/-- Bits 7-0 of a zero-extended byte are the byte. -/
@[simp] theorem extract_low_zext (b : Byte) : (zext b).extractLsb' 0 8 = b := by
  rw [zext, ← BitVec.setWidth_eq_extractLsb' (by decide), BitVec.setWidth_setWidth_of_le b (by decide),
    BitVec.setWidth_eq]

/-- Bits 15-8 of a zero-extended byte are zero: they lie above the byte's width. -/
@[simp] theorem extract_high_zext (b : Byte) : (zext b).extractLsb' 8 8 = 0#8 := by
  ext i hi
  simp [zext]

/-- Settles O1, from the two values of the sign bit and the two halves of a zero-extended byte. -/
theorem signExtensionCopiesSignBit : Obligations.SignExtensionCopiesSignBit :=
  ⟨fun _ _ _ hn => ⟨toNat_sext_of_sign_clear hn, sext_of_sign_set⟩,
    fun b => ⟨extract_low_zext b, extract_high_zext b⟩⟩

end Sys2Proof
end

section
/-! ## The condition flags (10_state.md R22, R25): the class of the value written, and who writes and reads COND -/

namespace Sys2Proof.Machine

open Sys2Proof.Claims

/-- The flag-update step writes the value R22 gives: bit 15 is the sign bit. -/
theorem classify_bits_eq_condOf (v : Word) : (classify v).bits = condOf v := by
  unfold classify condOf
  rw [BitVec.msb_eq_getLsbD_last]
  split
  · rfl
  · split <;> rfl

/-- After a result is written, COND is the class of what dr then reads as. -/
theorem State.writeResult_cond_eq_condOf_readReg (s : State) (dr : Reg) (v : Word) :
    (s.writeResult dr v).cond = condOf ((s.writeResult dr v).readReg dr) := by
  rw [State.writeResult_readReg, if_pos rfl, State.writeResult_cond, classify_bits_eq_condOf]

/-- Settles O2, from the class of a value and from dr reading as the value written to it. -/
theorem flagUpdateClassifiesStoredValue : Obligations.FlagUpdateClassifiesStoredValue :=
  ⟨fun s v => congrArg (fun c => { s with cond := c }) (classify_bits_eq_condOf v),
    State.writeResult_cond_eq_condOf_readReg⟩

/-! ### Who writes COND -/

/-- No TRAP service sets a flag (43_trap.md R83 to R89). -/
theorem TrapNext.cond_eq {ir : Word} {v : Byte} {s t : State} (h : TrapNext ir v s t) : t.cond = s.cond := by
  cases h with
  | getc | input =>
    obtain ⟨-, -, hcond, -⟩ := State.readToR0_frame _ ir
    exact hcond
  | write | halt | undefined => rfl

/-- A flag-updating instruction leaves COND the class of a register it writes. -/
theorem ExecNext.cond_of_updatesFlags {i : Instr} {s t : State} (h : ExecNext s i t) (hu : updatesFlags i = true) :
    ∃ dr, mayWriteReg i dr = true ∧ t.cond = condOf (t.readReg dr) := by
  cases h with
  | result dr v _ hw => exact ⟨dr, by simp [hw], s.writeResult_cond_eq_condOf_readReg dr v⟩
  | store a v _ hf => simp [hf] at hu
  | branch | jump | jsr | jsrr | trap | res | rti => cases hu

/-- An instruction that is not flag-updating leaves COND as it is. -/
theorem ExecNext.cond_eq {i : Instr} {s t : State} (h : ExecNext s i t) (hu : updatesFlags i = false) :
    t.cond = s.cond := by
  cases h with
  | result dr v hf => simp [hf] at hu
  | branch => split <;> rfl
  | trap _ _ ht => exact ht.cond_eq
  | store | jump | jsr | jsrr | res | rti => rfl

/-! ### Who reads COND: the run from the state with another COND -/

/-- A console read does not read COND. -/
theorem State.readToR0_of_other_cond (s : State) (ir c : Word) :
    ({ s with cond := c } : State).readToR0 ir = { s.readToR0 ir with cond := c } := by
  have hans : ({ s with cond := c } : State).consoleAnswer = s.consoleAnswer := rfl
  rcases s.readToR0_cases ir with ⟨b, ha, h⟩ | ⟨ha, h⟩ | ⟨ha, h⟩ <;> rw [h]
  · exact State.readToR0_byte ir (hans.trans ha)
  · exact State.readToR0_endOfInput ir (hans.trans ha)
  · exact State.readToR0_noAnswer ir (hans.trans ha)

/-- Where memory holds the string's zero word, writing the string ends with its bytes sent. -/
theorem State.writeString_of_stringWords {s : State} {ws : List Word} (sent : Word → List Byte)
    (h : s.mem.stringWords Config.memorySize (s.readReg 0) = some ws) :
    s.writeString sent = .next (s.consoleWrite (ws.flatMap sent)) := by
  simp only [State.writeString, h]

/-- Writing a string does not read COND. -/
theorem State.writeString_of_other_cond {s t : State} {sent : Word → List Byte} (c : Word)
    (h : s.writeString sent = .next t) :
    ({ s with cond := c } : State).writeString sent = .next { t with cond := c } := by
  rcases s.writeString_cases sent with ⟨ws, hws, hs⟩ | ⟨-, hs⟩ <;> rw [hs] at h <;> cases h
  exact State.writeString_of_stringWords sent hws

/-- TRAP does not read COND: none of its services does. -/
theorem exec_trap_of_other_cond {x : BitVec 4} {v : Byte} {s t : State} (c : Word)
    (h : exec (.trap x v) s = .next t) : exec (.trap x v) { s with cond := c } = .next { t with cond := c } := by
  rw [exec_trap] at h ⊢
  cases hv : TrapService.ofVector v with
  | none => rw [hv] at h; cases h; rfl
  | some service =>
    rw [hv] at h
    cases service with
    | getc => cases h; exact congrArg _ (s.readToR0_of_other_cond _ c)
    | input => cases h; exact congrArg _ ((s.consoleWrite promptBytes).readToR0_of_other_cond _ c)
    | puts | putsp => exact State.writeString_of_other_cond c h
    | out | halt => cases h; rfl

/-- No instruction but BRANCH reads COND: from another COND it does the same, and leaves that COND where it updates none. -/
theorem exec_of_other_cond {i : Instr} {s t : State} (c : Word) (hb : ∀ m o, i ≠ .branch m o)
    (h : exec i s = .next t) :
    exec i { s with cond := c } = .next { t with cond := if updatesFlags i then t.cond else c } := by
  cases i with
  | branch m o => exact absurd rfl (hb m o)
  | trap x v => exact exec_trap_of_other_cond c h
  | addRegister | addImmediate | andRegister | andImmediate | not | load | loadi | loadr | lea | store | storei | storer
  | jump | jumprJsr | jumprJsrr | res | rti => cases h; rfl

/-- Settles O39, from what each shape of instruction does to COND and from the run with another COND. -/
theorem onlyFlagInstructionsTouchCond : Obligations.OnlyFlagInstructionsTouchCond :=
  ⟨fun _ _ _ h => (exec_next h).cond_of_updatesFlags, fun _ _ _ h => (exec_next h).cond_eq,
    fun _ _ _ c hb h => exec_of_other_cond c hb h⟩

end Sys2Proof.Machine
end

section
/-! ## One step and the run state (30_encoding.md R48): when step executes the word at PC, and which run states it leaves -/

namespace Sys2Proof.Machine

/-- In RUNNING with no console read waiting, a step fetches, increments PC and executes (30_encoding.md R48). -/
theorem step_of_running_of_not_waiting {s : State} (hrun : s.run = .running) (hwait : s.wait = none) :
    step s = exec (decodeWord s.fetchWord) s.afterFetch := by
  simp only [step, hrun, hwait]

/-- A console read keeps the run state, or the input is exhausted and it faults. -/
theorem State.readToR0_run_cases (s : State) (ir : Word) :
    (s.readToR0 ir).run = s.run ∨ ∃ f, (s.readToR0 ir).run = .faulted f := by
  rcases s.readToR0_cases ir with ⟨b, -, h⟩ | ⟨-, h⟩ | ⟨-, h⟩ <;> rw [h]
  · exact .inl rfl
  · exact .inr ⟨_, rfl⟩
  · exact .inl rfl

/-- A TRAP service keeps the run state, is HALT and halts, or faults (43_trap.md R83 to R89). -/
theorem TrapNext.run_cases {ir : Word} {v : Byte} {s t : State} (h : TrapNext ir v s t) :
    t.run = s.run ∨ (t.run = .halted ∧ v = 0x25) ∨ ∃ f, t.run = .faulted f := by
  cases h with
  | getc => exact (s.readToR0_run_cases ir).imp_right .inr
  | input => exact ((s.consoleWrite promptBytes).readToR0_run_cases ir).imp_right .inr
  | write => exact .inl rfl
  | halt hv => exact .inr (.inl ⟨rfl, hv⟩)
  | undefined => exact .inr (.inr ⟨_, rfl⟩)

/-- An instruction keeps the run state, is TRAP HALT and halts, or faults (60_exceptions.md R92). -/
theorem ExecNext.run_cases {i : Instr} {s t : State} (h : ExecNext s i t) :
    t.run = s.run ∨ (t.run = .halted ∧ ∃ x, i = .trap x 0x25) ∨ ∃ f, t.run = .faulted f := by
  cases h with
  | trap x v ht => exact ht.run_cases.imp_right (.imp_left fun ⟨hrun, hv⟩ => ⟨hrun, x, hv ▸ rfl⟩)
  | res | rti => exact .inr (.inr ⟨_, rfl⟩)
  | branch => split <;> exact .inl rfl
  | result | store | jump | jsr | jsrr => exact .inl rfl

/-- A step leaves RUNNING, or HALTED by the TRAP HALT at PC, or FAULTED: a waiting step is a console read, any other the
instruction at PC (30_encoding.md R48). -/
theorem step_run_cases {s t : State} (h : step s = .next t) :
    t.run = .running ∨ (t.run = .halted ∧ ∃ x, decodeWord s.fetchWord = .trap x 0x25) ∨ ∃ f, t.run = .faulted f := by
  obtain ⟨hrun, ⟨ir, -, rfl⟩ | ⟨-, hexec⟩⟩ := step_next h <;> rw [← hrun]
  · exact (s.readToR0_run_cases ir).imp_right .inr
  · exact (exec_next hexec).run_cases

/-- Settles O49, from the step in RUNNING, from `step_next` (a step that answers next starts in RUNNING), and from the run
states a step leaves. -/
theorem stepExecutesDecodedWord : Obligations.StepExecutesDecodedWord :=
  ⟨fun _ => step_of_running_of_not_waiting, fun _ _ hrun h => hrun (step_next h).1, fun _ _ => step_run_cases⟩

end Sys2Proof.Machine
end

section
/-! ## The operate instructions (40_operate.md R63, R65, R66): the words of the immediate mode and of NOT, and the result -/

namespace Sys2Proof

open Sys2Proof.Machine Sys2Proof.Claims

/-! ### Operands of a word written out from its fields -/

/-- The operands a word of the immediate mode of ADD or AND holds. -/
theorem operands_of_immediate_word {o : Opcode} {dr sr1 : Reg} {imm5 : BitVec 5} {w : Word}
    (h : w = o.nibble ++ field dr ++ field sr1 ++ 0b1#1 ++ imm5) :
    opcodeOf w = o ∧ modeIsImmediate w = true ∧ fieldHighReg w = dr ∧ fieldMidReg w = sr1 ∧
      fieldImm5 w = imm5.signExtend 16 := by
  obtain ⟨hop, hdr, hsr1, hmode, himm⟩ := fields_opr_i h
  exact ⟨opcodeOf_eq hop, hmode, regField_eq hdr, regField_eq hsr1, congrArg sext himm⟩

/-- The operands of a word with two register fields and six bits below them: NOT, LOADR and STORER. -/
theorem operands_of_two_register_word {o : Opcode} {r b : Reg} {x : BitVec 6} {w : Word}
    (h : w = o.nibble ++ field r ++ field b ++ x) :
    opcodeOf w = o ∧ fieldHighReg w = r ∧ fieldMidReg w = b ∧ w.extractLsb' 0 6 = x := by
  obtain ⟨hop, hr, hb, hx⟩ := fields_base h
  exact ⟨opcodeOf_eq hop, regField_eq hr, regField_eq hb, hx⟩

/-! ### Decoding -/

theorem decodeWord_addImmediate {dr sr1 : Reg} {imm5 : BitVec 5} {w : Word}
    (h : w = Opcode.add.nibble ++ field dr ++ field sr1 ++ 0b1#1 ++ imm5) :
    decodeWord w = .addImmediate dr sr1 (imm5.signExtend 16) := by
  obtain ⟨hop, hmode, hdr, hsr1, himm⟩ := operands_of_immediate_word h
  simp only [decodeWord, hop, hmode, if_true, hdr, hsr1, himm]

theorem decodeWord_andImmediate {dr sr1 : Reg} {imm5 : BitVec 5} {w : Word}
    (h : w = Opcode.and.nibble ++ field dr ++ field sr1 ++ 0b1#1 ++ imm5) :
    decodeWord w = .andImmediate dr sr1 (imm5.signExtend 16) := by
  obtain ⟨hop, hmode, hdr, hsr1, himm⟩ := operands_of_immediate_word h
  simp only [decodeWord, hop, hmode, if_true, hdr, hsr1, himm]

theorem decodeWord_not {dr sr : Reg} {x : BitVec 6} {w : Word}
    (h : w = Opcode.not.nibble ++ field dr ++ field sr ++ x) : decodeWord w = .not dr sr x := by
  obtain ⟨hop, hdr, hsr, hx⟩ := operands_of_two_register_word h
  simp only [decodeWord, hop, hdr, hsr, hx]

end Sys2Proof

namespace Sys2Proof.Machine

open Sys2Proof.Claims

/-! ### The result -/

/-- Writing a result changes dr and COND and nothing else, with COND the class R22 gives. -/
theorem State.writeResult_eq_resultIn (s : State) (dr : Reg) (v : Word) : s.writeResult dr v = resultIn s dr v :=
  congrArg (fun c => { s with regs := s.regs.set dr.val v, cond := c }) (classify_bits_eq_condOf v)

/-- ADD, immediate mode, ends in the state that holds the sum modulo 65536. -/
theorem exec_addImmediate (dr sr1 : Reg) (imm : Word) (s : State) :
    exec (.addImmediate dr sr1 imm) s = .next (resultIn s dr (s.readReg sr1 + imm)) :=
  congrArg _ (s.writeResult_eq_resultIn dr (aluAdd (s.readReg sr1) imm))

/-- AND, immediate mode, ends in the state that holds the bitwise AND. -/
theorem exec_andImmediate (dr sr1 : Reg) (imm : Word) (s : State) :
    exec (.andImmediate dr sr1 imm) s = .next (resultIn s dr (s.readReg sr1 &&& imm)) :=
  congrArg _ (s.writeResult_eq_resultIn dr (aluAnd (s.readReg sr1) imm))

/-- NOT ends in the state that holds the complement, whatever bits 5-0 are. -/
theorem exec_not (dr sr : Reg) (x : BitVec 6) (s : State) :
    exec (.not dr sr x) s = .next (resultIn s dr (~~~ s.readReg sr)) :=
  congrArg _ (s.writeResult_eq_resultIn dr (aluNot (s.readReg sr)))

/-- Settles O8, from the operands of the immediate-mode word and from the result written with its flags. -/
theorem addImmediateRule : Obligations.AddImmediateRule :=
  ⟨fun _ _ _ => decodeWord_addImmediate rfl, exec_addImmediate⟩

/-- Settles O10, from the operands of the immediate-mode word and from the result written with its flags. -/
theorem andImmediateRule : Obligations.AndImmediateRule :=
  ⟨fun _ _ _ => decodeWord_andImmediate rfl, exec_andImmediate⟩

/-- Settles O11, from the operands of the two-register word and from the result written with its flags. -/
theorem notRule : Obligations.NotRule := ⟨fun _ _ _ => decodeWord_not rfl, exec_not⟩

end Sys2Proof.Machine
end

section
/-! ## Control transfer (41_control.md R69, R70): the words of JUMP and of JSR, and the state each transfer ends in -/

namespace Sys2Proof

open Sys2Proof.Machine Sys2Proof.Claims

/-! ### Decoding -/

theorem decodeWord_jump {x : BitVec 3} {baseR : Reg} {y : BitVec 6} {w : Word}
    (h : w = Opcode.jump.nibble ++ x ++ field baseR ++ y) : decodeWord w = .jump x baseR y := by
  obtain ⟨hop, hx, hbase, hy⟩ := fields_base h
  have hreg : fieldMidReg w = baseR := regField_eq hbase
  simp only [decodeWord, opcodeOf_eq hop, hx, hreg, hy]

theorem decodeWord_jumprJsr {off : BitVec 11} {w : Word} (h : w = Opcode.jumpr.nibble ++ 0b1#1 ++ off) :
    decodeWord w = .jumprJsr (off.signExtend 16) := by
  obtain ⟨hop, hbit, hoff⟩ := fields_jsr h
  have hmode : modeIsJsr w = true := hbit
  have hext : fieldPcoffset11 w = off.signExtend 16 := congrArg sext hoff
  simp only [decodeWord, opcodeOf_eq hop, hmode, if_true, hext]

end Sys2Proof

namespace Sys2Proof.Machine

/-! ### The transfer -/

/-- JUMP ends in the state whose PC is the base register's value, whatever bits 11-9 and 5-0 are. -/
theorem exec_jump (x : BitVec 3) (baseR : Reg) (y : BitVec 6) (s : State) :
    exec (.jump x baseR y) s = .next { s with pc := s.readReg baseR } := rfl

/-- JSR links the incremented PC in R7 and goes to the offset from it; the write of R7 leaves COND. -/
theorem exec_jumprJsr (off : Word) (s : State) :
    exec (.jumprJsr off) s = .next { s with regs := s.regs.set 7 s.pc, pc := s.pc + off } := rfl

/-- Settles O14, from the fields of the JUMP word and from the transfer to the base register's value. -/
theorem jumpRule : Obligations.JumpRule := ⟨fun _ _ _ => decodeWord_jump rfl, exec_jump⟩

/-- Settles O15, from the fields of the JSR word and from the link and the PC-relative transfer. -/
theorem jsrRule : Obligations.JsrRule := ⟨fun _ => decodeWord_jumprJsr rfl, exec_jumprJsr⟩

end Sys2Proof.Machine
end

section
/-! ## Loads, LEA and stores (42_load_store.md R74 to R80): the words of the two formats, the result, the word stored -/

namespace Sys2Proof

open Sys2Proof.Machine Sys2Proof.Claims

/-! ### Decoding, once for each format -/

/-- The operands of a word with one register field and a PC-relative offset below it. -/
theorem operands_of_pcRelative_word {o : Opcode} {r : Reg} {off : BitVec 9} {w : Word}
    (h : w = o.nibble ++ field r ++ off) :
    opcodeOf w = o ∧ fieldHighReg w = r ∧ fieldPcoffset9 w = off.signExtend 16 := by
  obtain ⟨hop, hr, hoff⟩ := fields_pcrel h
  exact ⟨opcodeOf_eq hop, regField_eq hr, congrArg sext hoff⟩

/-- The word of a class whose instructions take a register and a PC-relative offset is the instruction of these operands. -/
theorem decodeWord_pcRelative {o : Opcode} {form : Reg → Word → Instr}
    (hform : ∀ w, opcodeOf w = o → decodeWord w = form (fieldHighReg w) (fieldPcoffset9 w))
    (r : Reg) (off : BitVec 9) : decodeWord (o.nibble ++ field r ++ off) = form r (off.signExtend 16) := by
  obtain ⟨hop, hr, hoff⟩ := operands_of_pcRelative_word (o := o) (r := r) (off := off) rfl
  rw [hform _ hop, hr, hoff]

/-- The word of a class whose instructions take a register, a base register and a 6-bit offset is the instruction of these
operands. -/
theorem decodeWord_baseOffset {o : Opcode} {form : Reg → Reg → Word → Instr}
    (hform : ∀ w, opcodeOf w = o → decodeWord w = form (fieldHighReg w) (fieldMidReg w) (fieldOffset6 w))
    (r baseR : Reg) (off : BitVec 6) :
    decodeWord (o.nibble ++ field r ++ field baseR ++ off) = form r baseR (off.signExtend 16) := by
  obtain ⟨hop, hr, hbase, hoff⟩ := operands_of_two_register_word (o := o) (r := r) (b := baseR) (x := off) rfl
  rw [hform _ hop, hr, hbase, fieldOffset6, hoff, sext]

end Sys2Proof

namespace Sys2Proof.Machine

open Sys2Proof.Claims

/-! ### Loads and LEA: the result -/

/-- LOAD ends in the state that holds the word at the PC-relative address. -/
theorem exec_load (dr : Reg) (off : Word) (s : State) :
    exec (.load dr off) s = .next (resultIn s dr (s.readMem (s.pc + off))) :=
  congrArg _ (s.writeResult_eq_resultIn dr (s.readMem (s.pcRelative off)))

/-- LOADI ends in the state that holds the word the pointer names, the pointer read first. -/
theorem exec_loadi (dr : Reg) (off : Word) (s : State) :
    exec (.loadi dr off) s = .next (resultIn s dr (s.readMem (s.readMem (s.pc + off)))) :=
  congrArg _ (s.writeResult_eq_resultIn dr (s.readMem (s.indirect off)))

/-- LOADR ends in the state that holds the word at base plus offset, the base read before dr is written. -/
theorem exec_loadr (dr baseR : Reg) (off : Word) (s : State) :
    exec (.loadr dr baseR off) s = .next (resultIn s dr (s.readMem (s.readReg baseR + off))) :=
  congrArg _ (s.writeResult_eq_resultIn dr (s.readMem (s.baseOffset baseR off)))

/-- LEA ends in the state that holds the address itself. -/
theorem exec_lea (dr : Reg) (off : Word) (s : State) :
    exec (.lea dr off) s = .next (resultIn s dr (s.pc + off)) :=
  congrArg _ (s.writeResult_eq_resultIn dr (s.pcRelative off))

/-! ### Stores: the word stored -/

/-- A write to a memory in canonical form stores the word at its address and changes no other (20_memory.md R43). -/
theorem Memory.write_storedAt {m : Memory} (h : m.wf) (a v : Word) : storedAt m (m.write a v) a v :=
  ⟨by rw [Memory.read_write h, if_pos rfl], fun b hb => by rw [Memory.read_write h, if_neg hb]⟩

/-- A meaning that ends in a write to memory changes memory alone, by the word stored. -/
theorem exists_storedAt_of_writeMem {s : State} {r : Result} {a v : Word} (h : s.mem.wf)
    (hr : r = .next (s.writeMem a v)) : ∃ m, r = .next { s with mem := m } ∧ storedAt s.mem m a v :=
  ⟨s.mem.write a v, hr, Memory.write_storedAt h a v⟩

theorem exec_store (sr : Reg) (off : Word) (s : State) :
    exec (.store sr off) s = .next (s.writeMem (s.pc + off) (s.readReg sr)) := rfl

/-- STOREI reads its pointer in the state before the write. -/
theorem exec_storei (sr : Reg) (off : Word) (s : State) :
    exec (.storei sr off) s = .next (s.writeMem (s.readMem (s.pc + off)) (s.readReg sr)) := rfl

theorem exec_storer (sr baseR : Reg) (off : Word) (s : State) :
    exec (.storer sr baseR off) s = .next (s.writeMem (s.readReg baseR + off) (s.readReg sr)) := rfl

/-- Settles O20, from the PC-relative format and from the result written with its flags. -/
theorem loadRule : Obligations.LoadRule :=
  ⟨decodeWord_pcRelative fun w h => by simp only [decodeWord, h], exec_load⟩

/-- Settles O21, from the PC-relative format and from the result written with its flags. -/
theorem loadIndirectRule : Obligations.LoadIndirectRule :=
  ⟨decodeWord_pcRelative fun w h => by simp only [decodeWord, h], exec_loadi⟩

/-- Settles O22, from the base-plus-offset format and from the result written with its flags. -/
theorem loadBaseRule : Obligations.LoadBaseRule :=
  ⟨decodeWord_baseOffset fun w h => by simp only [decodeWord, h], exec_loadr⟩

/-- Settles O23, from the PC-relative format and from the result written with its flags. -/
theorem leaRule : Obligations.LeaRule :=
  ⟨decodeWord_pcRelative fun w h => by simp only [decodeWord, h], exec_lea⟩

/-- Settles O24, from the PC-relative format and from the word stored in canonical memory. -/
theorem storeRule : Obligations.StoreRule :=
  ⟨decodeWord_pcRelative fun w h => by simp only [decodeWord, h],
    fun sr off s hwf => exists_storedAt_of_writeMem hwf (exec_store sr off s)⟩

/-- Settles O25, from the PC-relative format and from the word stored in canonical memory. -/
theorem storeIndirectRule : Obligations.StoreIndirectRule :=
  ⟨decodeWord_pcRelative fun w h => by simp only [decodeWord, h],
    fun sr off s hwf => exists_storedAt_of_writeMem hwf (exec_storei sr off s)⟩

/-- Settles O26, from the base-plus-offset format and from the word stored in canonical memory. -/
theorem storeBaseRule : Obligations.StoreBaseRule :=
  ⟨decodeWord_baseOffset fun w h => by simp only [decodeWord, h],
    fun sr baseR off s hwf => exists_storedAt_of_writeMem hwf (exec_storer sr baseR off s)⟩

end Sys2Proof.Machine
end

section
/-! ## TRAP (43_trap.md R84, R88, R89): the word of a TRAP, and the state OUT, HALT and an undefined vector end in -/

namespace Sys2Proof

theorem decodeWord_trap {x : BitVec 4} {v : Byte} {w : Word} (h : w = Opcode.trap.nibble ++ x ++ v) :
    decodeWord w = .trap x v := by
  obtain ⟨hop, hx, hv⟩ := fields_trap h
  simp only [decodeWord, opcodeOf_eq hop, hx, hv]

end Sys2Proof

namespace Sys2Proof.Machine

open Sys2Proof.Claims

/-- With the spec's value of `trapLinksR7` a service runs in the state TRAP found, R7 included (43_trap.md R82, D5). -/
theorem trapLinked_eq (s : State) : trapLinked s = s := rfl

/-- OUT appends the low byte of R0 to the output and does nothing else, whatever bits 11-8 are. -/
theorem exec_trap_out (x : BitVec 4) (s : State) :
    exec (.trap x 0x21) s = .next (s.consoleWrite [lowByte (s.readReg 0)]) := by
  have hv : TrapService.ofVector 0x21 = some .out := rfl
  rw [exec_trap, hv, trapOut]

/-- HALT appends the notice to the output and halts, whatever bits 11-8 are. -/
theorem exec_trap_halt (x : BitVec 4) (s : State) :
    exec (.trap x 0x25) s = .next (s.consoleWrite noticeBytes).halt := by
  have hv : TrapService.ofVector 0x25 = some .halt := rfl
  rw [exec_trap, hv, trapHalt]

/-- A TRAP of a vector that names no service raises UndefinedTrap; the record's vector is the low byte of its word. -/
theorem exec_trap_undefined {v : Byte} (hv : TrapService.ofVector v = none) (x : BitVec 4) (s : State) :
    exec (.trap x v) s = .next (s.raise (.undefinedTrap v (encode (.trap x v)) s.instrAddr)) := by
  obtain ⟨-, hlow⟩ := encode_trap_fields x v
  rw [exec_trap, hv, trapUndefined, State.raiseUndefinedTrap, hlow]

/-- HALTED is terminal: a step starts in RUNNING (43_trap.md R88, 30_encoding.md R48). -/
theorem step_ne_next_of_halted {t : State} (ht : t.run = .halted) (u : State) : step t ≠ .next u := by
  intro h
  obtain ⟨hrun, -⟩ := step_next h
  rw [ht] at hrun
  cases hrun

/-- Settles O28, from the fields of the TRAP word and from the byte OUT appends. -/
theorem outRule : Obligations.OutRule :=
  ⟨fun _ => decodeWord_trap rfl, fun x s => by rw [trapLinked_eq]; exact exec_trap_out x s⟩

/-- Settles O32, from the fields of the TRAP word, from the state HALT leaves, and from no step starting in HALTED. -/
theorem haltRule : Obligations.HaltRule := by
  refine ⟨fun _ => decodeWord_trap rfl, fun x s => ⟨?_, fun t u ht => ?_⟩⟩
  · rw [trapLinked_eq]
    exact exec_trap_halt x s
  · cases (exec_trap_halt x s).symm.trans ht
    exact step_ne_next_of_halted rfl u

/-- Settles O33, from the fields of the TRAP word, from the vectors that name no service, and from the fault these raise. -/
theorem undefinedTrapRule : Obligations.UndefinedTrapRule := by
  intro v hv
  have hnone : TrapService.ofVector v = none := (TrapService.ofVector_none_iff v).mpr hv
  refine ⟨fun _ => decodeWord_trap rfl, fun x s => ⟨s.instrAddr, ?_⟩⟩
  rw [trapLinked_eq]
  exact exec_trap_undefined hnone x s

end Sys2Proof.Machine
end

section
/-! ## The illegal opcodes (44_reserved.md R90, R91): the words of format NONE, and the fault they raise -/

namespace Sys2Proof

/-- An opcode of format NONE decodes to the form that holds bits 11-0 as they are. -/
theorem decodeWord_formatNone {o : Opcode} {form : BitVec 12 → Instr}
    (hform : ∀ w, opcodeOf w = o → decodeWord w = form (w.extractLsb' 0 12)) (x : BitVec 12) :
    decodeWord (o.nibble ++ x) = form x := by
  obtain ⟨hop, hx⟩ := fields_none (w := o.nibble ++ x) rfl
  rw [hform _ (opcodeOf_eq hop), hx]

end Sys2Proof

namespace Sys2Proof.Machine

theorem exec_res (x : BitVec 12) (s : State) :
    exec (.res x) s = .next (s.raiseIllegalOpcode (encode (.res x))) := rfl

theorem exec_rti (x : BitVec 12) (s : State) :
    exec (.rti x) s = .next (s.raiseIllegalOpcode (encode (.rti x))) := rfl

/-- Settles O35, from format NONE and from the fault RES raises, whose address is that of the word executed. -/
theorem resRule : Obligations.ResRule :=
  ⟨decodeWord_formatNone fun w h => by simp only [decodeWord, h], fun x s => ⟨s.instrAddr, exec_res x s⟩⟩

/-- Settles O36, from format NONE and from the fault RTI raises, whose address is that of the word executed. -/
theorem rtiRule : Obligations.RtiRule :=
  ⟨decodeWord_formatNone fun w h => by simp only [decodeWord, h], fun x s => ⟨s.instrAddr, exec_rti x s⟩⟩

end Sys2Proof.Machine
end

section
/-! ## Decoding and encoding are inverse (30_encoding.md sections 2, 3) -/

namespace Sys2Proof

open Sys2Proof.Machine Sys2Proof.Claims

/-! ### The words the format lemmas leave open: register mode, BRANCH and JSRR -/

/-- The operands a word of the register mode of ADD or AND holds. -/
theorem operands_of_register_word {o : Opcode} {dr sr1 : Reg} {x : BitVec 2} {sr2 : Reg} {w : Word}
    (h : w = o.nibble ++ field dr ++ field sr1 ++ 0b0#1 ++ x ++ field sr2) :
    opcodeOf w = o ∧ modeIsImmediate w = false ∧ fieldHighReg w = dr ∧ fieldMidReg w = sr1 ∧
      w.extractLsb' 3 2 = x ∧ fieldSr2 w = sr2 := by
  obtain ⟨hop, hdr, hsr1, hmode, hx, hsr2⟩ := fields_opr_r h
  exact ⟨opcodeOf_eq hop, hmode, regField_eq hdr, regField_eq hsr1, hx, regField_eq hsr2⟩

theorem decodeWord_addRegister {dr sr1 : Reg} {x : BitVec 2} {sr2 : Reg} {w : Word}
    (h : w = Opcode.add.nibble ++ field dr ++ field sr1 ++ 0b0#1 ++ x ++ field sr2) :
    decodeWord w = .addRegister dr sr1 x sr2 := by
  obtain ⟨hop, hmode, hdr, hsr1, hx, hsr2⟩ := operands_of_register_word h
  simp only [decodeWord, hop, hmode, Bool.false_eq_true, if_false, hdr, hsr1, hx, hsr2]

theorem decodeWord_andRegister {dr sr1 : Reg} {x : BitVec 2} {sr2 : Reg} {w : Word}
    (h : w = Opcode.and.nibble ++ field dr ++ field sr1 ++ 0b0#1 ++ x ++ field sr2) :
    decodeWord w = .andRegister dr sr1 x sr2 := by
  obtain ⟨hop, hmode, hdr, hsr1, hx, hsr2⟩ := operands_of_register_word h
  simp only [decodeWord, hop, hmode, Bool.false_eq_true, if_false, hdr, hsr1, hx, hsr2]

theorem decodeWord_branch {cond : BitVec 3} {off : BitVec 9} {w : Word}
    (h : w = Opcode.branch.nibble ++ cond ++ off) : decodeWord w = .branch cond (off.signExtend 16) := by
  obtain ⟨hop, hcond, hoff⟩ := fields_pcrel h
  have hext : fieldPcoffset9 w = off.signExtend 16 := congrArg sext hoff
  simp only [decodeWord, opcodeOf_eq hop, hcond, hext]

theorem decodeWord_jumprJsrr {x : BitVec 2} {baseR : Reg} {y : BitVec 6} {w : Word}
    (h : w = Opcode.jumpr.nibble ++ 0b0#1 ++ x ++ field baseR ++ y) : decodeWord w = .jumprJsrr x baseR y := by
  obtain ⟨hop, hbit, hx, hbase, hy⟩ := fields_jsrr h
  have hmode : modeIsJsr w = false := hbit
  have hreg : fieldMidReg w = baseR := regField_eq hbase
  simp only [decodeWord, opcodeOf_eq hop, hmode, Bool.false_eq_true, if_false, hx, hreg, hy]

/-! ### Immediates and offsets: the word in a field's range is the extension of the field -/

theorem signExtend_imm5 {v : Word} (h : fitsImm5 v = true) : (v.extractLsb' 0 5).signExtend 16 = v :=
  sext_extract (by decide) (by decide) h

theorem signExtend_offset6 {v : Word} (h : fitsOffset6 v = true) : (v.extractLsb' 0 6).signExtend 16 = v :=
  sext_extract (by decide) (by decide) h

theorem signExtend_pcoffset9 {v : Word} (h : fitsPcoffset9 v = true) : (v.extractLsb' 0 9).signExtend 16 = v :=
  sext_extract (by decide) (by decide) h

theorem signExtend_pcoffset11 {v : Word} (h : fitsPcoffset11 v = true) : (v.extractLsb' 0 11).signExtend 16 = v :=
  sext_extract (by decide) (by decide) h

/-- A class with a register and a PC-relative offset: its instruction's word decodes to it, the offset being in range. -/
theorem decodeWord_pcRelative_of_fits {o : Opcode} {form : Reg → Word → Instr}
    (hform : ∀ w, opcodeOf w = o → decodeWord w = form (fieldHighReg w) (fieldPcoffset9 w))
    (r : Reg) {off : Word} (hoff : fitsPcoffset9 off = true) :
    decodeWord (o.nibble ++ regBits r ++ off.extractLsb' 0 9) = form r off :=
  (decodeWord_pcRelative hform r _).trans (by rw [signExtend_pcoffset9 hoff])

/-- A class with a register, a base register and an offset: its instruction's word decodes to it, the offset being in
range. -/
theorem decodeWord_baseOffset_of_fits {o : Opcode} {form : Reg → Reg → Word → Instr}
    (hform : ∀ w, opcodeOf w = o → decodeWord w = form (fieldHighReg w) (fieldMidReg w) (fieldOffset6 w))
    (r baseR : Reg) {off : Word} (hoff : fitsOffset6 off = true) :
    decodeWord (o.nibble ++ regBits r ++ regBits baseR ++ off.extractLsb' 0 6) = form r baseR off :=
  (decodeWord_baseOffset hform r baseR _).trans (by rw [signExtend_offset6 hoff])

/-- Settles O4: `encode` writes each constructor's word out from its fields, which is what the decoding lemma of its
format reads, and an operand in range is the extension of its field. -/
theorem decodeOfEncodeIsIdentity : Obligations.DecodeOfEncodeIsIdentity := by
  intro i hwf
  cases i with
  | branch cond off => exact (decodeWord_branch rfl).trans (by rw [signExtend_pcoffset9 hwf])
  | addRegister => exact decodeWord_addRegister rfl
  | andRegister => exact decodeWord_andRegister rfl
  | addImmediate dr sr1 imm => exact (decodeWord_addImmediate rfl).trans (by rw [signExtend_imm5 hwf])
  | andImmediate dr sr1 imm => exact (decodeWord_andImmediate rfl).trans (by rw [signExtend_imm5 hwf])
  | load r off | store r off | loadi r off | storei r off | lea r off =>
    exact decodeWord_pcRelative_of_fits (fun w h => by simp only [decodeWord, h]) r hwf
  | loadr r baseR off | storer r baseR off =>
    exact decodeWord_baseOffset_of_fits (fun w h => by simp only [decodeWord, h]) r baseR hwf
  | jumprJsr off => exact (decodeWord_jumprJsr rfl).trans (by rw [signExtend_pcoffset11 hwf])
  | jumprJsrr => exact decodeWord_jumprJsrr rfl
  | not => exact decodeWord_not rfl
  | jump => exact decodeWord_jump rfl
  | rti x | res x => exact decodeWord_formatNone (fun w h => by simp only [decodeWord, h]) x
  | trap => exact decodeWord_trap rfl

/-! ### The other way: every word is the word of the instruction it decodes to -/

/-- The decoder's offsets and immediates are in range. -/
@[simp] theorem fitsImm5_fieldImm5 (w : Word) : fitsImm5 (fieldImm5 w) = true :=
  inRange_sext (by decide) (by decide) _

@[simp] theorem fitsOffset6_fieldOffset6 (w : Word) : fitsOffset6 (fieldOffset6 w) = true :=
  inRange_sext (by decide) (by decide) _

@[simp] theorem fitsPcoffset9_fieldPcoffset9 (w : Word) : fitsPcoffset9 (fieldPcoffset9 w) = true :=
  inRange_sext (by decide) (by decide) _

@[simp] theorem fitsPcoffset11_fieldPcoffset11 (w : Word) : fitsPcoffset11 (fieldPcoffset11 w) = true :=
  inRange_sext (by decide) (by decide) _

/-- Every word decodes to a well-formed instruction: its fields are in range, and the other operands always are. -/
theorem wellFormed_decodeWord (w : Word) : wellFormed (decodeWord w) = true := by
  cases h : opcodeOf w with
  | add | and | jumpr => simp only [decodeWord, h]; split <;> simp [wellFormed]
  | branch | load | store | loadr | storer | rti | not | loadi | storei | jump | res | lea | trap =>
    simp [decodeWord, h, wellFormed]

@[simp] theorem regBits_regField (lo : Nat) (w : Word) : regBits (regField lo w) = w.extractLsb' lo 3 :=
  regBits_regOfBits _

/-- One bit of a word as a field of its own. -/
theorem extract_one (w : Word) (i : Nat) : w.extractLsb' i 1 = BitVec.ofBool (w.getLsbD i) := by
  ext j hj
  obtain rfl : j = 0 := by omega
  simp

/-- A mode bit that is set, as the one-bit field it is. -/
theorem extract_of_getLsbD_true {w : Word} {i : Nat} (h : w.getLsbD i = true) : 1#1 = w.extractLsb' i 1 := by
  rw [extract_one, h]
  rfl

/-- A mode bit that is clear, as the one-bit field it is. -/
theorem extract_of_getLsbD_false {w : Word} {i : Nat} (h : ¬ w.getLsbD i = true) : 0#1 = w.extractLsb' i 1 := by
  rw [extract_one, Bool.eq_false_of_not_eq_true h]
  rfl

/-! A word is its fields put together, for each format of 30_encoding.md R51. -/

theorem join_opr_r (w : Word) : w.extractLsb' 12 4 ++ w.extractLsb' 9 3 ++ w.extractLsb' 6 3 ++ w.extractLsb' 5 1 ++
    w.extractLsb' 3 2 ++ w.extractLsb' 0 3 = w := by
  iterate 5 rw [BitVec.extractLsb'_append_extractLsb'_eq_extractLsb' (by rfl)]
  exact BitVec.extractLsb'_eq_self

theorem join_opr_i (w : Word) : w.extractLsb' 12 4 ++ w.extractLsb' 9 3 ++ w.extractLsb' 6 3 ++ w.extractLsb' 5 1 ++
    w.extractLsb' 0 5 = w := by
  iterate 4 rw [BitVec.extractLsb'_append_extractLsb'_eq_extractLsb' (by rfl)]
  exact BitVec.extractLsb'_eq_self

theorem join_pcrel (w : Word) : w.extractLsb' 12 4 ++ w.extractLsb' 9 3 ++ w.extractLsb' 0 9 = w := by
  iterate 2 rw [BitVec.extractLsb'_append_extractLsb'_eq_extractLsb' (by rfl)]
  exact BitVec.extractLsb'_eq_self

theorem join_base (w : Word) : w.extractLsb' 12 4 ++ w.extractLsb' 9 3 ++ w.extractLsb' 6 3 ++ w.extractLsb' 0 6 = w := by
  iterate 3 rw [BitVec.extractLsb'_append_extractLsb'_eq_extractLsb' (by rfl)]
  exact BitVec.extractLsb'_eq_self

theorem join_jsr (w : Word) : w.extractLsb' 12 4 ++ w.extractLsb' 11 1 ++ w.extractLsb' 0 11 = w := by
  iterate 2 rw [BitVec.extractLsb'_append_extractLsb'_eq_extractLsb' (by rfl)]
  exact BitVec.extractLsb'_eq_self

theorem join_jsrr (w : Word) : w.extractLsb' 12 4 ++ w.extractLsb' 11 1 ++ w.extractLsb' 9 2 ++ w.extractLsb' 6 3 ++
    w.extractLsb' 0 6 = w := by
  iterate 4 rw [BitVec.extractLsb'_append_extractLsb'_eq_extractLsb' (by rfl)]
  exact BitVec.extractLsb'_eq_self

theorem join_trap (w : Word) : w.extractLsb' 12 4 ++ w.extractLsb' 8 4 ++ w.extractLsb' 0 8 = w := by
  iterate 2 rw [BitVec.extractLsb'_append_extractLsb'_eq_extractLsb' (by rfl)]
  exact BitVec.extractLsb'_eq_self

theorem join_none (w : Word) : w.extractLsb' 12 4 ++ w.extractLsb' 0 12 = w := by
  rw [BitVec.extractLsb'_append_extractLsb'_eq_extractLsb' (by rfl)]
  exact BitVec.extractLsb'_eq_self

@[simp] theorem extract_fieldImm5 (w : Word) : (fieldImm5 w).extractLsb' 0 5 = w.extractLsb' 0 5 :=
  extract_sext _ (by decide)

@[simp] theorem extract_fieldOffset6 (w : Word) : (fieldOffset6 w).extractLsb' 0 6 = w.extractLsb' 0 6 :=
  extract_sext _ (by decide)

@[simp] theorem extract_fieldPcoffset9 (w : Word) : (fieldPcoffset9 w).extractLsb' 0 9 = w.extractLsb' 0 9 :=
  extract_sext _ (by decide)

@[simp] theorem extract_fieldPcoffset11 (w : Word) : (fieldPcoffset11 w).extractLsb' 0 11 = w.extractLsb' 0 11 :=
  extract_sext _ (by decide)

/-- `encode` puts back every field that the decoder has read: the number of the class, a mode bit, the operands. -/
theorem encode_decodeWord (w : Word) : encode (decodeWord w) = w := by
  have hop := nibble_opcodeOf w
  cases h : opcodeOf w <;> rw [h] at hop <;> simp only [decodeWord, h]
  case add | and =>
    split
    next hmode =>
      simp only [encode, hop, extract_of_getLsbD_true hmode, fieldHighReg, fieldMidReg, regBits_regField,
        extract_fieldImm5]
      exact join_opr_i w
    next hmode =>
      simp only [encode, hop, extract_of_getLsbD_false hmode, fieldHighReg, fieldMidReg, fieldSr2, regBits_regField]
      exact join_opr_r w
  case jumpr =>
    split
    next hmode =>
      simp only [encode, hop, extract_of_getLsbD_true hmode, extract_fieldPcoffset11]
      exact join_jsr w
    next hmode =>
      simp only [encode, hop, extract_of_getLsbD_false hmode, fieldMidReg, regBits_regField]
      exact join_jsrr w
  case branch | load | store | loadi | storei | lea =>
    simp only [encode, hop, fieldHighReg, regBits_regField, extract_fieldPcoffset9]
    exact join_pcrel w
  case loadr | storer | not | jump =>
    simp only [encode, hop, fieldHighReg, fieldMidReg, regBits_regField, extract_fieldOffset6]
    exact join_base w
  case rti | res => simp only [encode, hop]; exact join_none w
  case trap => simp only [encode, hop]; exact join_trap w

/-- Settles O5, from the fields the decoder reads being in range and from `encode` putting each of them back. -/
theorem encodeOfDecodeIsIdentity : Obligations.EncodeOfDecodeIsIdentity :=
  fun w => ⟨wellFormed_decodeWord w, encode_decodeWord w⟩

end Sys2Proof
end

section
/-! ## The rows of the opcode table (30_encoding.md R54, opcode_table.json): each row's mask, match and constructor -/

namespace Sys2Proof

open Sys2Proof.Laws.OpcodeField

/-- Whether an instruction is the form its opcode's mode bit selects with 1: immediate mode of ADD and AND, JSR of JUMPR
(30_encoding.md R54). -/
def modeOf : Instr → Bool
  | .addImmediate _ _ _ | .andImmediate _ _ _ | .jumprJsr _ => true
  | _ => false

/-! ### The class and the mode that a word's bits give its instruction -/

theorem classOf_decodeWord (w : Word) : classOf (decodeWord w) = opcodeOf w := by
  cases h : opcodeOf w <;> simp only [decodeWord, h]
  case add | and | jumpr => split <;> rfl
  all_goals rfl

theorem modeOf_decodeWord_of_bit5 {w : Word} (h : opcodeOf w = .add ∨ opcodeOf w = .and) :
    modeOf (decodeWord w) = modeIsImmediate w := by
  rcases h with h | h <;> simp only [decodeWord, h] <;> split <;> simp [modeOf, *]

theorem modeOf_decodeWord_of_bit11 {w : Word} (h : opcodeOf w = .jumpr) : modeOf (decodeWord w) = modeIsJsr w := by
  simp only [decodeWord, h]
  split <;> simp [modeOf, *]

/-! ### What each mask keeps of a word -/

theorem and_opcode_mask (w : Word) : w &&& 0xF000 = w.extractLsb' 12 4 ++ 0#12 :=
  calc w &&& 0xF000 = (w.extractLsb' 12 4 ++ w.extractLsb' 0 12) &&& (BitVec.allOnes 4 ++ 0#12) := by
        rw [join_none]; rfl
    _ = w.extractLsb' 12 4 ++ 0#12 := by
        rw [BitVec.and_append, BitVec.and_allOnes, BitVec.and_zero]

theorem and_opcode_bit5_mask (w : Word) :
    w &&& 0xF020 = w.extractLsb' 12 4 ++ 0#3 ++ 0#3 ++ w.extractLsb' 5 1 ++ 0#5 :=
  calc w &&& 0xF020 =
        (w.extractLsb' 12 4 ++ w.extractLsb' 9 3 ++ w.extractLsb' 6 3 ++ w.extractLsb' 5 1 ++ w.extractLsb' 0 5) &&&
          (BitVec.allOnes 4 ++ 0#3 ++ 0#3 ++ BitVec.allOnes 1 ++ 0#5) := by rw [join_opr_i]; rfl
    _ = w.extractLsb' 12 4 ++ 0#3 ++ 0#3 ++ w.extractLsb' 5 1 ++ 0#5 := by
        simp only [BitVec.and_append, BitVec.and_allOnes, BitVec.and_zero]

theorem and_opcode_bit11_mask (w : Word) : w &&& 0xF800 = w.extractLsb' 12 4 ++ w.extractLsb' 11 1 ++ 0#11 :=
  calc w &&& 0xF800 = (w.extractLsb' 12 4 ++ w.extractLsb' 11 1 ++ w.extractLsb' 0 11) &&&
          (BitVec.allOnes 4 ++ BitVec.allOnes 1 ++ 0#11) := by rw [join_jsr]; rfl
    _ = w.extractLsb' 12 4 ++ w.extractLsb' 11 1 ++ 0#11 := by
        simp only [BitVec.and_append, BitVec.and_allOnes, BitVec.and_zero]

/-! ### The rows: a match under its mask says the class, and the mode where the mask has the mode bit -/

theorem classRow_iff {w m : Word} (o : Opcode) (hm : m = o.nibble ++ 0#12) :
    w &&& 0xF000 = m ↔ classOf (decodeWord w) = o := by
  rw [and_opcode_mask, hm, classOf_decodeWord]
  constructor
  · intro h
    obtain ⟨hop, -⟩ := fields_none h
    obtain ⟨hop', -⟩ := fields_none (rfl : w.extractLsb' 12 4 ++ 0#12 = _)
    exact opcodeOf_eq (hop'.symm.trans hop)
  · rintro rfl
    rw [nibble_opcodeOf]

theorem bit5Row_iff {w m : Word} (o : Opcode) (b : Bool) (ho : o = .add ∨ o = .and)
    (hm : m = o.nibble ++ 0#3 ++ 0#3 ++ BitVec.ofBool b ++ 0#5) :
    w &&& 0xF020 = m ↔ classOf (decodeWord w) = o ∧ modeOf (decodeWord w) = b := by
  rw [and_opcode_bit5_mask, hm, classOf_decodeWord, extract_one]
  constructor
  · intro h
    obtain ⟨hop, -, -, hmode, -⟩ := fields_opr_i h
    obtain ⟨hop', -, -, hmode', -⟩ := fields_opr_i
      (rfl : w.extractLsb' 12 4 ++ 0#3 ++ 0#3 ++ BitVec.ofBool (w.getLsbD 5) ++ 0#5 = _)
    have hclass : opcodeOf w = o := opcodeOf_eq (hop'.symm.trans hop)
    have hbit : w.getLsbD 5 = b := by simpa using hmode'.symm.trans hmode
    exact ⟨hclass, (modeOf_decodeWord_of_bit5 (hclass ▸ ho)).trans hbit⟩
  · rintro ⟨rfl, rfl⟩
    rw [nibble_opcodeOf, modeOf_decodeWord_of_bit5 ho, modeIsImmediate]

theorem bit11Row_iff {w m : Word} (b : Bool) (hm : m = Opcode.jumpr.nibble ++ BitVec.ofBool b ++ 0#11) :
    w &&& 0xF800 = m ↔ classOf (decodeWord w) = .jumpr ∧ modeOf (decodeWord w) = b := by
  rw [and_opcode_bit11_mask, hm, classOf_decodeWord, extract_one]
  constructor
  · intro h
    obtain ⟨hop, hmode, -⟩ := fields_jsr h
    obtain ⟨hop', hmode', -⟩ := fields_jsr (rfl : w.extractLsb' 12 4 ++ BitVec.ofBool (w.getLsbD 11) ++ 0#11 = _)
    have hclass : opcodeOf w = .jumpr := opcodeOf_eq (hop'.symm.trans hop)
    have hbit : w.getLsbD 11 = b := by simpa using hmode'.symm.trans hmode
    exact ⟨hclass, (modeOf_decodeWord_of_bit11 hclass).trans hbit⟩
  · rintro ⟨hclass, rfl⟩
    rw [← hclass, nibble_opcodeOf, modeOf_decodeWord_of_bit11 hclass, modeIsJsr]

/-- Settles O3: each row's match says a class, with a mode where an opcode has two forms, and these say the constructor. -/
theorem everyWordMatchesExactlyOneRow : Obligations.EveryWordMatchesExactlyOneRow := by
  intro w
  rw [classRow_iff .branch (by decide), bit5Row_iff .add false (by decide) (by decide),
    bit5Row_iff .add true (by decide) (by decide), classRow_iff .load (by decide), classRow_iff .store (by decide),
    bit11Row_iff true (by decide), bit11Row_iff false (by decide), bit5Row_iff .and false (by decide) (by decide),
    bit5Row_iff .and true (by decide) (by decide), classRow_iff .loadr (by decide), classRow_iff .storer (by decide),
    classRow_iff .rti (by decide), classRow_iff .not (by decide), classRow_iff .loadi (by decide),
    classRow_iff .storei (by decide), classRow_iff .jump (by decide), classRow_iff .res (by decide),
    classRow_iff .lea (by decide), classRow_iff .trap (by decide)]
  cases decodeWord w <;> simp [classOf, modeOf]

/-- Settles O6: thirteen fixed words, decoded. -/
theorem specWordsDecode : Obligations.SpecWordsDecode := by
  unfold Obligations.SpecWordsDecode
  decide

end Sys2Proof
end

section
/-! ## The invariant (10_state.md R24, R28; 60_exceptions.md R92, R100): every step keeps it, and a run starts with it -/

namespace Sys2Proof.Machine

/-! ### States that have the invariant -/

/-- A state with no read waiting has the invariant where its run state tells the truth. -/
theorem State.inv_of_not_waiting {s : State} (hmem : s.mem.wf) (hcond : legalCond s.cond)
    (hpos : s.inPos ≤ s.input.length) (hwait : s.wait = none)
    (hhalted : s.run = .halted → isTrapWord (s.readMem s.instrAddr) 0x25)
    (hfaulted : ∀ f, s.run = .faulted f → f.truthful s) : s.Inv where
  memory := hmem
  cond := hcond
  consumed := hpos
  waiting := fun ir h => by rw [hwait] at h; cases h
  halted := hhalted
  faulted := hfaulted

/-- A machine that is RUNNING is not HALTED. -/
theorem State.run_ne_halted {s : State} (hrun : s.run = .running) : s.run ≠ .halted := by simp [hrun]

/-- A machine that is RUNNING is not FAULTED. -/
theorem State.run_ne_faulted {s : State} (hrun : s.run = .running) (f : FaultRecord) : s.run ≠ .faulted f := by
  simp [hrun]

/-- In RUNNING with no read waiting, nothing more is asked than memory, COND and the input position. -/
theorem State.inv_of_running {s : State} (hmem : s.mem.wf) (hcond : legalCond s.cond)
    (hpos : s.inPos ≤ s.input.length) (hwait : s.wait = none) (hrun : s.run = .running) : s.Inv :=
  State.inv_of_not_waiting hmem hcond hpos hwait (fun h => absurd h (State.run_ne_halted hrun))
    (fun f h => absurd h (State.run_ne_faulted hrun f))

/-! ### What each operation keeps -/

/-- The flag-update step leaves a legal value of COND. -/
theorem legalCond_classify_bits (v : Word) : legalCond (classify v).bits := .inr (classify_bits_oneHot v)

/-- A byte answered is one of the input's, so the position after it is still within the input. -/
theorem State.inPos_lt_of_byte {s : State} {b : Byte} (h : s.consoleAnswer = .byte b) : s.inPos < s.input.length := by
  obtain ⟨hlt, -⟩ := List.getElem?_eq_some_iff.1 (State.consoleAnswer_byte_iff.1 h)
  exact hlt

/-- The console read of the GETC or IN just before PC keeps the invariant, whatever the host answers. -/
theorem State.Inv.readToR0 {s : State} {ir : Word} {v : Byte} (hs : s.Inv) (hrun : s.run = .running)
    (hword : ir = s.readMem s.instrAddr) (htrap : isTrapWord ir v) (hv : readsConsole v = true) :
    (s.readToR0 ir).Inv := by
  rcases s.readToR0_cases ir with ⟨b, ha, h⟩ | ⟨ha, h⟩ | ⟨ha, h⟩ <;> rw [h]
  · exact State.inv_of_running hs.memory hs.cond (State.inPos_lt_of_byte ha) rfl hrun
  · refine State.inv_of_not_waiting hs.memory hs.cond hs.consumed rfl (fun h => by cases h) (fun f hf => ?_)
    cases hf
    obtain ⟨hop, hvec⟩ := htrap
    exact ⟨rfl, hword, ⟨hop, rfl⟩, hvec ▸ hv, ha⟩
  · refine ⟨hs.memory, hs.cond, hs.consumed, fun ir' hir => ?_, hs.halted, fun f hf => ?_⟩
    · cases hir
      exact ⟨hrun, hword, v, htrap, hv⟩
    · exact absurd hf (State.run_ne_faulted hrun f)

/-- A TRAP service keeps the invariant: HALT and a fault are those of the TRAP just before PC. -/
theorem TrapNext.inv {ir : Word} {v : Byte} {s t : State} (h : TrapNext ir v s t) (hs : s.Inv)
    (hrun : s.run = .running) (hwait : s.wait = none) (hword : ir = s.readMem s.instrAddr)
    (htrap : isTrapWord ir v) : t.Inv := by
  have hout (bs : List Byte) : (s.consoleWrite bs).Inv :=
    State.inv_of_running hs.memory hs.cond hs.consumed hwait hrun
  cases h with
  | getc hv => exact hs.readToR0 hrun hword htrap (hv ▸ rfl)
  | input hv => exact (hout promptBytes).readToR0 hrun hword htrap (hv ▸ rfl)
  | write bs => exact hout bs
  | halt hv =>
    exact State.inv_of_not_waiting hs.memory hs.cond hs.consumed hwait (fun _ => hword ▸ hv ▸ htrap)
      (fun f hf => by cases hf)
  | undefined hnone =>
    refine State.inv_of_not_waiting hs.memory hs.cond hs.consumed hwait (fun h => by cases h) (fun f hf => ?_)
    cases hf
    obtain ⟨hop, hvec⟩ := htrap
    exact ⟨rfl, hword, ⟨hop, rfl⟩, hvec ▸ (TrapService.ofVector_none_iff v).1 hnone⟩

/-- An illegal opcode just before PC leaves a truthful record. -/
theorem State.Inv.raiseIllegalOpcode {s : State} {ir : Word} (hs : s.Inv) (hwait : s.wait = none)
    (hword : ir = s.readMem s.instrAddr) (hop : opcodeOf ir = .res ∨ opcodeOf ir = .rti) :
    (s.raiseIllegalOpcode ir).Inv := by
  refine State.inv_of_not_waiting hs.memory hs.cond hs.consumed hwait (fun h => by cases h) (fun f hf => ?_)
  cases hf
  exact ⟨rfl, hword, hop⟩

/-- The instruction whose word stands just before PC keeps the invariant. -/
theorem ExecNext.inv {i : Instr} {s t : State} (h : ExecNext s i t) (hs : s.Inv) (hrun : s.run = .running)
    (hwait : s.wait = none) (hword : encode i = s.readMem s.instrAddr) : t.Inv := by
  cases h with
  | result dr v => exact State.inv_of_running hs.memory (legalCond_classify_bits v) hs.consumed hwait hrun
  | store a v =>
    exact State.inv_of_running (Memory.write_wf hs.memory a v) hs.cond hs.consumed hwait hrun
  | branch => split <;> exact State.inv_of_running hs.memory hs.cond hs.consumed hwait hrun
  | jump | jsr | jsrr => exact State.inv_of_running hs.memory hs.cond hs.consumed hwait hrun
  | trap x v ht => exact ht.inv hs hrun hwait hword (encode_trap_fields x v)
  | res x => exact hs.raiseIllegalOpcode hwait hword (.inl (opcodeOf_eq (Laws.OpcodeField.res x)))
  | rti x => exact hs.raiseIllegalOpcode hwait hword (.inr (opcodeOf_eq (Laws.OpcodeField.rti x)))

/-- Settles O57: a waiting step is the read of the TRAP that waits, any other the instruction at PC, whose word is the
one just before the incremented PC. -/
theorem stepKeepsInvariant : Obligations.StepKeepsInvariant := by
  intro s t hs h
  obtain ⟨hrun, ⟨ir, hwait, rfl⟩ | ⟨hwait, hexec⟩⟩ := step_next h
  · obtain ⟨-, hword, v, htrap, hv⟩ := hs.waiting ir hwait
    exact hs.readToR0 hrun hword htrap hv
  · have hfetch : s.afterFetch.Inv := State.inv_of_running hs.memory hs.cond hs.consumed hwait hrun
    refine (exec_next hexec).inv hfetch hrun hwait ?_
    rw [encode_decodeWord, State.afterFetch_instrAddr]
    rfl

/-- Settles O56: the reset memory is empty, COND is zero, and the machine is RUNNING. -/
theorem resetHasInvariant : Obligations.ResetHasInvariant :=
  State.inv_of_running Memory.reset_wf (.inl rfl) (Nat.zero_le _) rfl rfl

/-! ### The loader (70_reset_and_hazards.md R110) -/

/-- The loader accepts an image of at most 65536 words, writes it from the origin on and sets PC. -/
theorem State.load_eq_some_iff {s t : State} {origin : Word} {image : List Word} :
    s.load origin image = some t ↔
      image.length ≤ Config.memorySize ∧ { s with mem := s.mem.writeWords origin image, pc := origin } = t := by
  unfold State.load
  split <;> simp [*]

/-- The state when the loop starts has the invariant. -/
theorem State.start_inv {origin : Word} {image : List Word} {input : List Byte} {s : State}
    (h : State.start origin image input = some s) : s.Inv := by
  obtain ⟨-, rfl⟩ := State.load_eq_some_iff.1 h
  exact State.inv_of_running (Memory.writeWords_wf Memory.reset_wf origin image) (.inl rfl) (Nat.zero_le _) rfl rfl

/-- Every state reached from one with the invariant has it. -/
theorem State.Inv.of_reaches {s t : State} (hs : s.Inv) (h : Reaches s t) : t.Inv := by
  induction h with
  | refl => exact hs
  | next _ hstep ih => exact stepKeepsInvariant _ _ ih hstep

/-- Settles O58, from the invariant of the loaded start and from every step keeping it. -/
theorem loadedRunsKeepInvariant : Obligations.LoadedRunsKeepInvariant :=
  fun _ _ _ _ _ hstart hreach => (State.start_inv hstart).of_reaches hreach

end Sys2Proof.Machine
end

section
/-! ## The remaining operate and control instructions (40_operate.md, 41_control.md): register mode, BRANCH and JSRR -/

namespace Sys2Proof.Machine

open Sys2Proof.Claims

/-! ### Operate instructions -/

/-- ADD, register mode, ends in the state that holds the sum modulo 65536, whatever bits 4-3 are. -/
theorem exec_addRegister (dr sr1 : Reg) (x : BitVec 2) (sr2 : Reg) (s : State) :
    exec (.addRegister dr sr1 x sr2) s = .next (resultIn s dr (s.readReg sr1 + s.readReg sr2)) :=
  congrArg _ (s.writeResult_eq_resultIn dr (aluAdd (s.readReg sr1) (s.readReg sr2)))

/-- AND, register mode, ends in the state that holds the bitwise AND, whatever bits 4-3 are. -/
theorem exec_andRegister (dr sr1 : Reg) (x : BitVec 2) (sr2 : Reg) (s : State) :
    exec (.andRegister dr sr1 x sr2) s = .next (resultIn s dr (s.readReg sr1 &&& s.readReg sr2)) :=
  congrArg _ (s.writeResult_eq_resultIn dr (aluAnd (s.readReg sr1) (s.readReg sr2)))

/-- Settles O7, from the operands of the register-mode word and from the result written with its flags. -/
theorem addRegisterRule : Obligations.AddRegisterRule := ⟨fun _ _ _ _ => decodeWord_addRegister rfl, exec_addRegister⟩

/-- Settles O9, from the operands of the register-mode word and from the result written with its flags. -/
theorem andRegisterRule : Obligations.AndRegisterRule := ⟨fun _ _ _ _ => decodeWord_andRegister rfl, exec_andRegister⟩

/-- The register written reads as the result. -/
theorem resultIn_readReg (s : State) (dr : Reg) (v : Word) : (resultIn s dr v).readReg dr = v :=
  s.writeReg_readReg_same dr v

/-- Settles O12: NOT leaves the complement in dr, and the complement plus one is the negation in two's complement. -/
theorem notThenAddOneNegates : Obligations.NotThenAddOneNegates := by
  intro dr sr x s
  refine ⟨_, _, exec_not dr sr x s, exec_addImmediate dr dr 1 _, ?_⟩
  rw [resultIn_readReg, resultIn_readReg]
  exact ((BitVec.zero_sub _).trans (BitVec.neg_eq_not_add _)).symm

/-! ### BRANCH -/

theorem exec_branch (cond : BitVec 3) (off : Word) (s : State) :
    exec (.branch cond off) s = .next (if condHolds cond s.cond then s.setPc (s.pc + off) else s) := rfl

/-- After a flag update by `v`, the mask n z p is met by n where `v` is NEGATIVE, z where it is ZERO, p where it is
POSITIVE (10_state.md R23). -/
theorem condHolds_condOf (n z p : Bool) (v : Word) :
    condHolds (BitVec.ofBool n ++ BitVec.ofBool z ++ BitVec.ofBool p) (condOf v) =
      if v = 0 then z else if v.getLsbD 15 then n else p := by
  unfold condOf
  split
  · revert n z p; decide
  · split <;> (revert n z p; decide)

/-- Settles O13, from the fields of the BRANCH word, the test of mask and COND, and what it says after a flag update. -/
theorem branchRule : Obligations.BranchRule := by
  refine ⟨fun n z p off => decodeWord_branch ?_, fun cond off s => ?_, fun n z p off v s => ?_⟩
  · have hmask : Opcode.branch.nibble ++ BitVec.ofBool n ++ BitVec.ofBool z ++ BitVec.ofBool p =
        Opcode.branch.nibble ++ (BitVec.ofBool n ++ BitVec.ofBool z ++ BitVec.ofBool p) := by
      revert n z p; decide
    exact congrArg (· ++ off) hmask
  · simp only [exec_branch, condHolds, bne_iff_ne]
    rfl
  · rw [exec_branch, State.setcc_cond, classify_bits_eq_condOf, condHolds_condOf]
    rfl

/-- An empty mask is met by no COND (30_encoding.md R58). -/
theorem condHolds_zero_mask (flags : Word) : condHolds 0 flags = false := by simp [condHolds]

/-- COND zero meets no mask (10_state.md R31). -/
theorem condHolds_zero_flags (cond : BitVec 3) : condHolds cond 0 = false := by simp [condHolds]

/-- The word 0x0000 is a BRANCH with an empty mask (30_encoding.md R58). -/
theorem decodeWord_zero : decodeWord 0x0000 = .branch 0 0 := by decide

theorem exec_branch_zero_mask (off : Word) (s : State) : exec (.branch 0 off) s = .next s := by
  rw [exec_branch, condHolds_zero_mask]
  rfl

/-- Settles O18, from the empty mask being met by no COND and the word 0x0000 having that mask. -/
theorem branchWithEmptyMaskIsNoOp : Obligations.BranchWithEmptyMaskIsNoOp := by
  refine ⟨exec_branch_zero_mask, fun s hrun hwait hword => ?_⟩
  rw [step_of_running_of_not_waiting hrun hwait, State.fetchWord, hword, decodeWord_zero, exec_branch_zero_mask]
  rfl

/-! ### JSRR, and the return from a call -/

/-- JSRR links the incremented PC in R7 and goes to the base register as it is then, which for R7 is the link. -/
theorem exec_jumprJsrr (x : BitVec 2) (baseR : Reg) (y : BitVec 6) (s : State) :
    exec (.jumprJsrr x baseR y) s =
      .next { s with regs := s.regs.set 7 s.pc, pc := if baseR = 7 then s.pc else s.readReg baseR } :=
  congrArg (fun a => (.next (s.link.setPc a) : Result)) (s.link_readReg baseR)

/-- Settles O16, from the fields of the JSRR word and from the base being read after the link. -/
theorem jsrrRule : Obligations.JsrrRule := ⟨fun _ _ _ => decodeWord_jumprJsrr rfl, exec_jumprJsrr⟩

/-- Settles O17: either call leaves the incremented PC in R7, and JUMP goes where R7 says. -/
theorem jumpByR7ReturnsAfterCall : Obligations.JumpByR7ReturnsAfterCall := by
  intro call s t hcall h x y u hu
  have hlink : t.readReg 7 = s.pc := by
    rcases hcall with ⟨off, rfl⟩ | ⟨x, b, y, rfl⟩ <;> cases h <;> exact s.link_readReg 7
  rw [exec_jump, hu, hlink]

end Sys2Proof.Machine
end

section
/-! ## COND over a run (10_state.md R22 to R24, R31): one bit after a flag update, zero before the first -/

namespace Sys2Proof.Machine

open Sys2Proof.Claims

/-- COND is the class of a value, one of three bits, after a flag-updating instruction. -/
theorem ExecNext.cond_oneHot {i : Instr} {s t : State} (h : ExecNext s i t) (hu : updatesFlags i = true) :
    t.cond = 0x0001 ∨ t.cond = 0x0002 ∨ t.cond = 0x0004 := by
  obtain ⟨dr, -, hcond⟩ := h.cond_of_updatesFlags hu
  rw [hcond, ← classify_bits_eq_condOf]
  exact classify_bits_oneHot _

/-- A step leaves COND as it is unless it executes a flag-updating instruction: a waiting step is a console read. -/
theorem step_cond_eq {s t : State} (h : step s = .next t)
    (hu : s.wait = none → updatesFlags (decodeWord s.fetchWord) = false) : t.cond = s.cond := by
  obtain ⟨-, ⟨ir, -, rfl⟩ | ⟨hwait, hexec⟩⟩ := step_next h
  · obtain ⟨-, -, hcond, -⟩ := s.readToR0_frame ir
    exact hcond
  · exact (exec_next hexec).cond_eq (hu hwait)

/-- A step leaves COND as it is or sets one of its bits. -/
theorem step_cond_cases {s t : State} (h : step s = .next t) :
    t.cond = s.cond ∨ t.cond = 0x0001 ∨ t.cond = 0x0002 ∨ t.cond = 0x0004 := by
  by_cases hu : s.wait = none ∧ updatesFlags (decodeWord s.fetchWord) = true
  · obtain ⟨hwait, hflags⟩ := hu
    rw [step_of_running_of_not_waiting (step_next h).1 hwait] at h
    exact .inr ((exec_next h).cond_oneHot hflags)
  · exact .inl (step_cond_eq h fun hwait => by simpa [hwait] using hu)

/-- Settles O40, from the class bits of a value, and from a step leaving COND or setting one of its bits. -/
theorem condIsOneHotAfterFlagUpdate : Obligations.CondIsOneHotAfterFlagUpdate := by
  refine ⟨rfl, fun s v => classify_bits_eq_condOf v, fun i s t h => (exec_next h).cond_oneHot, fun s t h => ?_⟩
  have hcases := step_cond_cases h
  refine ⟨hcases, fun hlegal => ?_, fun hne => ?_⟩
  · rcases hcases with heq | hbit
    · rwa [heq]
    · exact .inr hbit
  · rcases hcases with heq | hbit | hbit | hbit
    · rwa [heq]
    all_goals rw [hbit]; decide

/-- Settles O19: a run starts with COND zero, only a flag-updating instruction changes it, and zero meets no mask. -/
theorem noBranchTakenBeforeFirstFlagUpdate : Obligations.NoBranchTakenBeforeFirstFlagUpdate := by
  refine ⟨fun origin image input s h => ?_, fun s t h hzero hu => (step_cond_eq h hu).trans hzero,
    fun cond off s hzero => ?_⟩
  · obtain ⟨-, rfl⟩ := State.load_eq_some_iff.1 h
    rfl
  · rw [exec_branch, hzero, condHolds_zero_flags]
    rfl

/-! ### The register file as the host reads it (10_state.md R17) -/

/-- Settles O55: slots below 8 are the registers, and 8 and 9 are PC and COND. -/
theorem registerFileHasTenSlots : Obligations.RegisterFileHasTenSlots := by
  intro s r
  have hr : r.val < 8 := r.isLt
  exact ⟨by simp only [State.slot, hr, dif_pos], rfl, rfl⟩

end Sys2Proof.Machine
end

section
/-! ## The console (00_scope.md R15, 43_trap.md R83, R86, 60_exceptions.md R100): its answers, GETC and IN, and the wait -/

namespace Sys2Proof.Machine

open Sys2Proof.Claims

/-! ### What ConsoleRead answers -/

theorem State.consoleAnswer_endOfInput_iff {s : State} :
    s.consoleAnswer = .endOfInput ↔ s.input.length ≤ s.inPos ∧ s.inputEnded = true := by
  rw [← List.getElem?_eq_none_iff]
  unfold State.consoleAnswer
  split
  · simp [*]
  · split <;> simp [*]

theorem State.consoleAnswer_noAnswer_iff {s : State} :
    s.consoleAnswer = .noAnswer ↔ s.input.length ≤ s.inPos ∧ s.inputEnded = false := by
  rw [← List.getElem?_eq_none_iff]
  unfold State.consoleAnswer
  split
  · simp [*]
  · split <;> simp [*]

/-- Settles O59, one answer at a time. -/
theorem consoleReadAnswersTheNextInputByte : Obligations.ConsoleReadAnswersTheNextInputByte :=
  ⟨fun _ _ => State.consoleAnswer_byte_iff, fun _ => State.consoleAnswer_endOfInput_iff,
    fun _ => State.consoleAnswer_noAnswer_iff⟩

/-! ### GETC and IN -/

/-- GETC is the console read of its word. -/
theorem exec_trap_getc (x : BitVec 4) (s : State) :
    exec (.trap x 0x20) s = .next (s.readToR0 (encode (.trap x 0x20))) := by
  have hv : TrapService.ofVector 0x20 = some .getc := rfl
  rw [exec_trap, hv, trapGetc]

/-- IN is the console read of its word after the prompt. -/
theorem exec_trap_in (x : BitVec 4) (s : State) :
    exec (.trap x 0x23) s = .next ((s.consoleWrite promptBytes).readToR0 (encode (.trap x 0x23))) := by
  have hv : TrapService.ofVector 0x23 = some .input := rfl
  rw [exec_trap, hv, trapIn]

/-- At the end of the input the read of a TRAP's word faults with that TRAP's vector. -/
theorem State.readToR0_trap_endOfInput {s : State} (x : BitVec 4) (v : Byte) (h : s.consoleAnswer = .endOfInput) :
    s.readToR0 (encode (.trap x v)) =
      { s with run := .faulted (.inputExhausted v (encode (.trap x v)) s.instrAddr), wait := none } := by
  obtain ⟨-, hvec⟩ := encode_trap_fields x v
  rw [State.readToR0_endOfInput _ h, State.raiseInputExhausted, hvec]
  rfl

/-- Settles O27, from the fields of the TRAP word and from the console read on each answer. -/
theorem getcRule : Obligations.GetcRule := by
  refine ⟨fun _ => decodeWord_trap rfl, fun x s => ?_⟩
  rw [trapLinked_eq, exec_trap_getc]
  exact ⟨fun b h => congrArg _ (s.readToR0_byte _ h),
    fun h => ⟨_, _, congrArg _ (s.readToR0_trap_endOfInput x 0x20 h)⟩,
    fun h => ⟨_, congrArg _ (s.readToR0_noAnswer _ h)⟩⟩

/-- Settles O30, from the fields of the TRAP word and from the console read after the prompt, on each answer. -/
theorem inRule : Obligations.InRule := by
  refine ⟨fun _ => decodeWord_trap rfl, fun x s => ?_⟩
  rw [trapLinked_eq, exec_trap_in]
  exact ⟨fun b h => congrArg _ (State.readToR0_byte (s := s.consoleWrite promptBytes) _ h),
    fun h => ⟨_, _, congrArg _ (State.readToR0_trap_endOfInput (s := s.consoleWrite promptBytes) x 0x23 h)⟩,
    fun h => ⟨_, congrArg _ (State.readToR0_noAnswer (s := s.consoleWrite promptBytes) _ h)⟩⟩

/-! ### The wait -/

/-- In RUNNING with a console read waiting, a step is that read again. -/
theorem step_of_waiting {s : State} {ir : Word} (hrun : s.run = .running) (hwait : s.wait = some ir) :
    step s = .next (s.readToR0 ir) := by
  simp only [step, hrun, hwait]

/-- Setting the wait to what it is changes nothing. -/
theorem State.setWait_self {s : State} {w : Option Word} (h : s.wait = w) : s.setWait w = s := by
  subst h
  rfl

/-- Settles O50: the read's three answers, when GETC or IN asks for the first time and when a waiting step asks again. -/
theorem consoleReadWaitsForTheAnswer : Obligations.ConsoleReadWaitsForTheAnswer := by
  refine ⟨fun x s h => ⟨?_, ?_⟩, fun s ir hrun hwait => ?_⟩
  · exact (exec_trap_getc x s).trans (congrArg _ (s.readToR0_noAnswer _ h))
  · exact (exec_trap_in x s).trans (congrArg _ (State.readToR0_noAnswer (s := s.consoleWrite promptBytes) _ h))
  · rw [step_of_waiting hrun hwait]
    refine ⟨fun h => ?_, fun b h => congrArg _ (s.readToR0_byte ir h),
      fun h => congrArg _ (s.readToR0_endOfInput ir h)⟩
    rw [s.readToR0_noAnswer ir h, State.setWait_self hwait]

end Sys2Proof.Machine
end

section
/-! ## PUTS and PUTSP (43_trap.md R85, R87): the string from R0 on, up to the first zero word -/

namespace Sys2Proof.Machine

open Sys2Proof.Claims

theorem wordAfter_zero (a : Word) : wordAfter a 0 = a := by simp [wordAfter]

/-- Counting on from the next address. -/
theorem wordAfter_next (a : Word) (j : Nat) : wordAfter (a + 1) j = wordAfter a (j + 1) := Word.succ_add a j

/-- The words before the first zero word are the string, where the search looks as far as that word. -/
theorem Memory.stringWords_of_first_zero {m : Memory} {fuel k : Nat} {a : Word} (hk : k < fuel)
    (hnz : ∀ j < k, m.read (wordAfter a j) ≠ 0) (hz : m.read (wordAfter a k) = 0) :
    m.stringWords fuel a = some ((List.range k).map fun j => m.read (wordAfter a j)) := by
  obtain ⟨fuel, rfl⟩ := Nat.exists_eq_succ_of_ne_zero (Nat.ne_zero_of_lt hk)
  induction k generalizing fuel a with
  | zero =>
    rw [wordAfter_zero] at hz
    rw [Memory.stringWords, if_pos hz]
    rfl
  | succ k ih =>
    have ha : m.read a ≠ 0 := wordAfter_zero a ▸ hnz 0 (Nat.succ_pos k)
    obtain ⟨fuel, rfl⟩ := Nat.exists_eq_succ_of_ne_zero (show fuel ≠ 0 by omega)
    have hrest := ih (a := a + 1) (fun j hj => wordAfter_next a j ▸ hnz (j + 1) (by omega)) (wordAfter_next a k ▸ hz)
      fuel (by omega)
    rw [Memory.stringWords, if_neg ha, hrest, List.range_succ_eq_map]
    simp only [Option.map_some, List.map_cons, List.map_map, Function.comp_def, wordAfter_zero, wordAfter_next]

/-- The first zero word is fewer than 65536 words away, since these are all the words there are. -/
theorem lt_memorySize_of_first_zero {m : Memory} {a : Word} {k : Nat}
    (hnz : ∀ j < k, m.read (wordAfter a j) ≠ 0) (hz : m.read (wordAfter a k) = 0) : k < Config.memorySize := by
  obtain ⟨j, hj, heq⟩ := Word.eq_add_ofNat a (wordAfter a k)
  by_contra hk
  exact hnz j (by omega) (by rw [← hz, heq, wordAfter])

/-- With the first zero word `k` words after R0's address, a string service ends with the words before it sent. -/
theorem State.writeString_of_first_zero {s : State} {k : Nat} (sent : Word → List Byte)
    (hnz : ∀ j < k, s.readMem (wordAfter (s.readReg 0) j) ≠ 0) (hz : s.readMem (wordAfter (s.readReg 0) k) = 0) :
    s.writeString sent =
      .next (s.consoleWrite ((List.range k).flatMap fun j => sent (s.readMem (wordAfter (s.readReg 0) j)))) := by
  rw [State.writeString_of_stringWords sent
    (Memory.stringWords_of_first_zero (lt_memorySize_of_first_zero hnz hz) hnz hz), List.flatMap_map]
  rfl

/-- Without a zero word in memory a string service never ends (D11). -/
theorem State.writeString_of_no_zero {s : State} (sent : Word → List Byte) (h : ∀ a, s.readMem a ≠ 0) :
    s.writeString sent = .fault .endlessString := by
  rcases s.writeString_cases sent with ⟨ws, hws, -⟩ | ⟨-, hs⟩
  · obtain ⟨-, -, hz⟩ := Memory.stringWords_some hws
    exact absurd hz (h _)
  · exact hs

theorem exec_trap_puts (x : BitVec 4) (s : State) : exec (.trap x 0x22) s = s.writeString putsBytes := by
  have hv : TrapService.ofVector 0x22 = some .puts := rfl
  rw [exec_trap, hv, trapPuts]

theorem exec_trap_putsp (x : BitVec 4) (s : State) : exec (.trap x 0x24) s = s.writeString putspBytes := by
  have hv : TrapService.ofVector 0x24 = some .putsp := rfl
  rw [exec_trap, hv, trapPutsp]

/-- Settles O29, from the string up to the first zero word, of which each word sends its low byte. -/
theorem putsRule : Obligations.PutsRule := by
  refine ⟨fun _ => decodeWord_trap rfl, fun x s k hnz hz => ?_, fun x s h => ?_⟩
  · rw [exec_trap_puts, State.writeString_of_first_zero putsBytes hnz hz, trapLinked_eq, List.map_eq_flatMap]
    rfl
  · rw [exec_trap_puts, State.writeString_of_no_zero putsBytes h]

/-- Settles O31, from the string up to the first zero word, of which each word sends one byte or two. -/
theorem putspRule : Obligations.PutspRule := by
  refine ⟨fun _ => decodeWord_trap rfl, fun x s k hnz hz => ?_, fun x s h => ?_⟩
  · rw [exec_trap_putsp, State.writeString_of_first_zero putspBytes hnz hz, trapLinked_eq]
    rfl
  · rw [exec_trap_putsp, State.writeString_of_no_zero putspBytes h]

end Sys2Proof.Machine
end

section
/-! ## TRAP: the link parameter and the unused bits (43_trap.md R82, 30_encoding.md R56) -/

namespace Sys2Proof.Machine

open Sys2Proof.Claims

/-- A TRAP service writes no register but R0, and R0 only where it reads the console. -/
theorem TrapNext.readReg_eq {ir : Word} {v : Byte} {s t : State} (h : TrapNext ir v s t) {r : Reg}
    (hr : readsConsole v = true → r ≠ 0) : t.readReg r = s.readReg r := by
  cases h with
  | getc hv => exact s.readToR0_readReg ir (hr (hv ▸ rfl))
  | input hv => exact (s.consoleWrite promptBytes).readToR0_readReg ir (hr (hv ▸ rfl))
  | write | halt | undefined => rfl

/-- Settles O34: no service writes R7, so it holds what it held in the state the service ran in, the link's if there is one. -/
theorem trapWritesR7OnlyWhereTheParameterSaysSo : Obligations.TrapWritesR7OnlyWhereTheParameterSaysSo := by
  refine ⟨fun x v s t h => (execTrap_next h).readReg_eq fun _ => by decide, fun x v s t h => ?_, fun x v s => rfl⟩
  rcases trapWithLink_cases true x v s with ⟨u, hu, he⟩ | ⟨-, -, he⟩ <;> rw [he] at h <;> cases h
  exact (hu.readReg_eq fun _ => by decide).trans (s.link_readReg 7)

/-- A console read that neither faults nor waits, and so has had a byte, does the same for any TRAP word. -/
theorem State.readToR0_eq_of_completed {s : State} {ir : Word} (hwait : (s.readToR0 ir).wait = none)
    (hrun : ∀ f, (s.readToR0 ir).run ≠ .faulted f) (ir' : Word) : s.readToR0 ir' = s.readToR0 ir := by
  rcases s.readToR0_cases ir with ⟨b, ha, h⟩ | ⟨-, h⟩ | ⟨-, h⟩
  · rw [h, s.readToR0_byte ir' ha]
  · exact absurd (congrArg State.run h) (hrun _)
  · rw [h] at hwait
    cases hwait

/-- A TRAP that ends without a fault or a wait does the same with any bits 11-8: no service but these looks at its word. -/
theorem exec_trap_of_other_unused {v : Byte} {s t : State} {x : BitVec 4} (h : exec (.trap x v) s = .next t)
    (hwait : t.wait = none) (hrun : ∀ f, t.run ≠ .faulted f) (x' : BitVec 4) : exec (.trap x' v) s = .next t := by
  rw [exec_trap] at h ⊢
  cases hv : TrapService.ofVector v with
  | none =>
    rw [hv] at h
    cases h
    exact absurd rfl (hrun _)
  | some service =>
    rw [hv] at h
    cases service with
    | getc => cases h; exact congrArg _ (State.readToR0_eq_of_completed hwait hrun _)
    | input => cases h; exact congrArg _ (State.readToR0_eq_of_completed hwait hrun _)
    | out | puts | putsp | halt => exact h

/-- Settles O37: the meanings of the five formats do not look at the unused bits, nor does a TRAP that records no word. -/
theorem unusedBitsAreIgnored : Obligations.UnusedBitsAreIgnored :=
  ⟨fun _ _ _ _ _ => rfl, fun _ _ _ _ _ => rfl, fun _ _ _ _ => rfl, fun _ _ _ _ => rfl, fun _ _ _ _ => rfl,
    fun x _ _ _ h hwait hrun => exec_trap_of_other_unused h hwait hrun x⟩

end Sys2Proof.Machine
end

section
/-! ## What an instruction leaves unchanged (10_state.md R19, R21, R29, 20_memory.md R38): registers, PC, memory, streams -/

namespace Sys2Proof.Machine

open Sys2Proof.Claims

/-- A console read writes nothing. -/
theorem State.readToR0_out (s : State) (ir : Word) : (s.readToR0 ir).out = s.out := by
  obtain ⟨-, -, -, -, -, hout⟩ := s.readToR0_frame ir
  exact hout

/-! ### TRAP -/

/-- A TRAP service leaves memory, PC and the input as they are. -/
theorem TrapNext.frame {ir : Word} {v : Byte} {s t : State} (h : TrapNext ir v s t) :
    t.mem = s.mem ∧ t.pc = s.pc ∧ t.input = s.input ∧ t.inputEnded = s.inputEnded := by
  cases h with
  | getc | input =>
    obtain ⟨hmem, hpc, -, hinput, hended, -⟩ := State.readToR0_frame _ ir
    exact ⟨hmem, hpc, hinput, hended⟩
  | write | halt | undefined => exact ⟨rfl, rfl, rfl, rfl⟩

/-- A TRAP service appends to the output or leaves it. -/
theorem TrapNext.out_grows {ir : Word} {v : Byte} {s t : State} (h : TrapNext ir v s t) :
    ∃ bs, t.out = s.out ++ bs := by
  cases h with
  | getc => exact ⟨[], by rw [s.readToR0_out, List.append_nil]⟩
  | input => exact ⟨promptBytes, (s.consoleWrite promptBytes).readToR0_out ir⟩
  | write bs => exact ⟨bs, rfl⟩
  | halt => exact ⟨noticeBytes, rfl⟩
  | undefined => exact ⟨[], (List.append_nil _).symm⟩

/-- A TRAP whose service is none of OUT, PUTS, IN, PUTSP and HALT leaves the output. -/
theorem TrapNext.out_eq {ir : Word} {x : BitVec 4} {v : Byte} {s t : State} (h : TrapNext ir v s t)
    (hv : mayWriteConsole (.trap x v) = false) : t.out = s.out := by
  cases h with
  | getc => exact s.readToR0_out ir
  | input hv' | halt hv' =>
    subst hv'
    cases hv
  | write bs hv' => rcases hv' with rfl | rfl | rfl <;> cases hv
  | undefined => rfl

theorem readsConsole_iff {v : Byte} : readsConsole v = true ↔ v = 0x20 ∨ v = 0x23 := by simp [readsConsole]

/-- GETC and IN end in a console read, IN's after the prompt. -/
theorem TrapNext.eq_readToR0 {ir : Word} {v : Byte} {s t : State} (h : TrapNext ir v s t)
    (hv : readsConsole v = true) : t = s.readToR0 ir ∨ t = (s.consoleWrite promptBytes).readToR0 ir := by
  cases h with
  | getc => exact .inl rfl
  | input => exact .inr rfl
  | write bs hv' => rcases hv' with rfl | rfl | rfl <;> cases hv
  | halt hv' =>
    subst hv'
    cases hv
  | undefined hnone => rcases readsConsole_iff.1 hv with rfl | rfl <;> cases hnone

/-- A service that does not read the console leaves the input position and the wait. -/
theorem TrapNext.inPos_wait_eq {ir : Word} {v : Byte} {s t : State} (h : TrapNext ir v s t)
    (hv : readsConsole v = false) : t.inPos = s.inPos ∧ t.wait = s.wait := by
  cases h with
  | getc hv' | input hv' =>
    subst hv'
    cases hv
  | write | halt | undefined => exact ⟨rfl, rfl⟩

/-! ### The input position of a console read -/

/-- A byte answered is consumed. -/
theorem State.readToR0_inPos_of_byte {s : State} {b : Byte} (ir : Word) (h : s.consoleAnswer = .byte b) :
    (s.readToR0 ir).inPos = s.inPos + 1 := by
  rw [s.readToR0_byte ir h]
  rfl

/-- Where no byte is answered none is consumed. -/
theorem State.readToR0_inPos_of_no_byte {s : State} (ir : Word) (h : ∀ b, s.consoleAnswer ≠ .byte b) :
    (s.readToR0 ir).inPos = s.inPos := by
  rcases s.readToR0_cases ir with ⟨b, ha, -⟩ | ⟨-, h'⟩ | ⟨-, h'⟩
  · exact absurd ha (h b)
  all_goals rw [h']; rfl

/-! ### Every instruction -/

/-- An instruction writes no general-purpose register but those 10_state.md R19 lists for it. -/
theorem ExecNext.readReg_eq {i : Instr} {s t : State} (h : ExecNext s i t) {r : Reg}
    (hr : mayWriteReg i r = false) : t.readReg r = s.readReg r := by
  cases h with
  | result dr v _ hw => rw [State.writeResult_readReg, if_neg (by simpa [hw] using hr)]
  | branch => split <;> rfl
  | jsr | jsrr =>
    rw [State.setPc_readReg, State.link_readReg, if_neg (by simpa [mayWriteReg] using hr)]
  | trap x v ht => exact ht.readReg_eq fun hv => by simpa [mayWriteReg, hv] using hr
  | store | jump | res | rti => rfl

/-- Settles O38, from the registers each shape of instruction writes. -/
theorem onlyListedInstructionsWriteRegisters : Obligations.OnlyListedInstructionsWriteRegisters :=
  fun _ _ _ _ h hr => (exec_next h).readReg_eq hr

/-- An instruction that stores nothing leaves memory. -/
theorem ExecNext.mem_eq {i : Instr} {s t : State} (h : ExecNext s i t) (hi : storedWord i s = none) :
    t.mem = s.mem := by
  cases h with
  | store a v hst =>
    rw [hst] at hi
    cases hi
  | branch => split <;> rfl
  | trap x v ht =>
    obtain ⟨hmem, -⟩ := ht.frame
    exact hmem
  | result | jump | jsr | jsrr | res | rti => rfl

/-- A store writes its word at its address and does nothing else. -/
theorem ExecNext.eq_writeMem {i : Instr} {s t : State} (h : ExecNext s i t) {a v : Word}
    (hi : storedWord i s = some (a, v)) : t = s.writeMem a v := by
  cases h with
  | store a' v' hst =>
    rw [hst] at hi
    cases hi
    rfl
  | result dr v' _ _ _ hst =>
    rw [hst] at hi
    cases hi
  | branch | jump | jsr | jsrr | trap | res | rti => cases hi

/-- Settles O41, from stores writing the word `storedWord` names and from the rest leaving memory. -/
theorem onlyStoresWriteMemory : Obligations.OnlyStoresWriteMemory := by
  intro i s t hwf h
  refine ⟨fun hi a => ?_, fun a v hi => ?_⟩
  · rw [State.readMem, (exec_next h).mem_eq hi, State.readMem]
  · obtain rfl := (exec_next h).eq_writeMem hi
    exact Memory.write_storedAt hwf a v

/-- An instruction that transfers no control leaves PC. -/
theorem ExecNext.pc_eq {i : Instr} {s t : State} (h : ExecNext s i t) (hi : transfersControl i = false) :
    t.pc = s.pc := by
  cases h with
  | trap x v ht =>
    obtain ⟨-, hpc, -⟩ := ht.frame
    exact hpc
  | branch | jump | jsr | jsrr => cases hi
  | result | store | res | rti => rfl

/-- Settles O42: an instruction that transfers no control leaves the PC that the fetch has incremented. -/
theorem onlyControlTransfersWritePc : Obligations.OnlyControlTransfersWritePc := by
  refine ⟨fun i s t h => (exec_next h).pc_eq, fun s t h hwait htr => ?_⟩
  rw [step_of_running_of_not_waiting (step_next h).1 hwait] at h
  exact (exec_next h).pc_eq htr

/-- An instruction that is no TRAP does nothing with the console. -/
theorem ExecNext.console_eq_of_not_trap {i : Instr} {s t : State} (h : ExecNext s i t)
    (hi : ∀ x v, i ≠ .trap x v) :
    t.input = s.input ∧ t.inputEnded = s.inputEnded ∧ t.inPos = s.inPos ∧ t.out = s.out ∧ t.wait = s.wait := by
  cases h with
  | trap x v => exact absurd rfl (hi x v)
  | branch => split <;> exact ⟨rfl, rfl, rfl, rfl, rfl⟩
  | result | store | jump | jsr | jsrr | res | rti => exact ⟨rfl, rfl, rfl, rfl, rfl⟩

theorem isConsoleRead_iff {i : Instr} :
    isConsoleRead i = true ↔ ∃ x v, i = .trap x v ∧ readsConsole v = true := by
  cases i <;> simp [isConsoleRead]

/-- Settles O43: only TRAP touches the streams, of its services the listed ones write, and GETC and IN read. -/
theorem onlyConsoleServicesMoveStreams : Obligations.OnlyConsoleServicesMoveStreams := by
  intro i s t h
  by_cases hi : ∃ x v, i = .trap x v
  · obtain ⟨x, v, rfl⟩ := hi
    have ht := execTrap_next h
    obtain ⟨-, -, hinput, hended⟩ := ht.frame
    refine ⟨hinput, hended, ht.out_grows, ht.out_eq, ht.inPos_wait_eq, fun hv b hb => ?_, fun hv hb => ?_⟩
    · rcases ht.eq_readToR0 hv with rfl | rfl <;> exact State.readToR0_inPos_of_byte _ hb
    · rcases ht.eq_readToR0 hv with rfl | rfl <;> exact State.readToR0_inPos_of_no_byte _ hb
  · obtain ⟨hinput, hended, hpos, hout, hwait⟩ :=
      (exec_next h).console_eq_of_not_trap fun x v heq => hi ⟨x, v, heq⟩
    refine ⟨hinput, hended, ⟨[], by rw [hout, List.append_nil]⟩, fun _ => hout, fun _ => ⟨hpos, hwait⟩,
      fun hread => ?_, fun _ _ => hpos⟩
    obtain ⟨x, v, heq, -⟩ := isConsoleRead_iff.1 hread
    exact absurd ⟨x, v, heq⟩ hi

/-! ### Nothing reads the output: the run from the state with another output -/

/-- A console read does not read the output. -/
theorem State.readToR0_of_other_out (s : State) (ir : Word) (o : List Byte) :
    ({ s with out := o } : State).readToR0 ir = { s.readToR0 ir with out := o } := by
  have hans : ({ s with out := o } : State).consoleAnswer = s.consoleAnswer := rfl
  rcases s.readToR0_cases ir with ⟨b, ha, h⟩ | ⟨ha, h⟩ | ⟨ha, h⟩ <;> rw [h]
  · exact State.readToR0_byte ir (hans.trans ha)
  · exact State.readToR0_endOfInput ir (hans.trans ha)
  · exact State.readToR0_noAnswer ir (hans.trans ha)

/-- Writing a string appends the same bytes to any output. -/
theorem State.writeString_of_other_out {s t : State} {sent : Word → List Byte} (o : List Byte)
    (h : s.writeString sent = .next t) : ∃ bs, t.out = s.out ++ bs ∧
      ({ s with out := o } : State).writeString sent = .next { t with out := o ++ bs } := by
  rcases s.writeString_cases sent with ⟨ws, hws, hs⟩ | ⟨-, hs⟩ <;> rw [hs] at h <;> cases h
  exact ⟨_, rfl, State.writeString_of_stringWords sent hws⟩

/-- A TRAP does the same after any output, and appends the same bytes. -/
theorem exec_trap_of_other_out {x : BitVec 4} {v : Byte} {s t : State} (o : List Byte)
    (h : exec (.trap x v) s = .next t) : ∃ bs, t.out = s.out ++ bs ∧
      exec (.trap x v) { s with out := o } = .next { t with out := o ++ bs } := by
  rw [exec_trap] at h ⊢
  cases hv : TrapService.ofVector v with
  | none =>
    rw [hv] at h
    cases h
    exact ⟨[], (List.append_nil _).symm, by rw [List.append_nil]; rfl⟩
  | some service =>
    rw [hv] at h
    cases service with
    | getc =>
      cases h
      refine ⟨[], by rw [s.readToR0_out, List.append_nil], ?_⟩
      rw [List.append_nil]
      exact congrArg _ (s.readToR0_of_other_out _ o)
    | input =>
      cases h
      exact ⟨promptBytes, (s.consoleWrite promptBytes).readToR0_out _,
        congrArg _ ((s.consoleWrite promptBytes).readToR0_of_other_out _ (o ++ promptBytes))⟩
    | puts | putsp => exact State.writeString_of_other_out o h
    | out | halt =>
      cases h
      exact ⟨_, rfl, rfl⟩

/-- An instruction does the same after any output, and appends the same bytes. -/
theorem exec_of_other_out {i : Instr} {s t : State} (o : List Byte) (h : exec i s = .next t) :
    ∃ bs, t.out = s.out ++ bs ∧ exec i { s with out := o } = .next { t with out := o ++ bs } := by
  cases i with
  | trap x v => exact exec_trap_of_other_out o h
  | branch m off =>
    rw [exec_branch] at h ⊢
    cases h
    refine ⟨[], ?_, ?_⟩ <;> rw [List.append_nil] <;> cases condHolds m s.cond <;> rfl
  | addRegister | addImmediate | andRegister | andImmediate | not | load | loadi | loadr | lea | store | storei | storer
  | jump | jumprJsr | jumprJsrr | res | rti =>
    cases h
    exact ⟨[], (List.append_nil _).symm, by rw [List.append_nil]; rfl⟩

/-- Settles O44: a waiting read and an instruction each do the same after any output. -/
theorem outputIsNeverRead : Obligations.OutputIsNeverRead := by
  intro s t o h
  obtain ⟨hrun, ⟨ir, hwait, rfl⟩ | ⟨hwait, hexec⟩⟩ := step_next h
  · rw [step_of_waiting (s := { s with out := o }) hrun hwait, State.readToR0_of_other_out, State.readToR0_out,
      List.drop_length, List.append_nil]
  · obtain ⟨bs, hout, hother⟩ := exec_of_other_out o hexec
    rw [step_of_running_of_not_waiting (s := { s with out := o }) hrun hwait, hout, State.afterFetch_out,
      List.drop_left]
    exact hother

end Sys2Proof.Machine
end

section
/-! ## The run state and the faults (10_state.md R28, 60_exceptions.md R92, R93): who halts, who faults, and what it leaves -/

namespace Sys2Proof.Machine

/-- Everything an instruction that faults can be, with its record and the state it leaves (60_exceptions.md R92, R93). -/
inductive FaultNext (s : State) : Instr → FaultRecord → State → Prop where
  | res (x : BitVec 12) : FaultNext s (.res x) (.illegalOpcode (encode (.res x)) s.instrAddr)
      (s.raise (.illegalOpcode (encode (.res x)) s.instrAddr))
  | rti (x : BitVec 12) : FaultNext s (.rti x) (.illegalOpcode (encode (.rti x)) s.instrAddr)
      (s.raise (.illegalOpcode (encode (.rti x)) s.instrAddr))
  | undefined (x : BitVec 4) (v : Byte) : TrapService.ofVector v = none →
      FaultNext s (.trap x v) (.undefinedTrap v (encode (.trap x v)) s.instrAddr)
        (s.raise (.undefinedTrap v (encode (.trap x v)) s.instrAddr))
  | getc (x : BitVec 4) : s.consoleAnswer = .endOfInput →
      FaultNext s (.trap x 0x20) (.inputExhausted 0x20 (encode (.trap x 0x20)) s.instrAddr)
        ((s.raise (.inputExhausted 0x20 (encode (.trap x 0x20)) s.instrAddr)).setWait none)
  | input (x : BitVec 4) : s.consoleAnswer = .endOfInput →
      FaultNext s (.trap x 0x23) (.inputExhausted 0x23 (encode (.trap x 0x23)) s.instrAddr)
        (((s.consoleWrite promptBytes).raise
          (.inputExhausted 0x23 (encode (.trap x 0x23)) s.instrAddr)).setWait none)

/-! ### From the next state of an instruction -/

/-- In RUNNING a console read that faults is at the end of the input. -/
theorem State.readToR0_of_faulted {s : State} {ir : Word} {f : FaultRecord} (hrun : s.run = .running)
    (hf : (s.readToR0 ir).run = .faulted f) :
    s.consoleAnswer = .endOfInput ∧ f = .inputExhausted (lowByte ir) ir s.instrAddr ∧
      s.readToR0 ir = (s.raise f).setWait none := by
  rcases s.readToR0_cases ir with ⟨b, -, h⟩ | ⟨ha, h⟩ | ⟨-, h⟩ <;> rw [h] at hf ⊢
  · exact absurd hf (State.run_ne_faulted hrun f)
  · cases hf
    exact ⟨ha, rfl, rfl⟩
  · exact absurd hf (State.run_ne_faulted hrun f)

/-- In RUNNING a TRAP faults by an undefined vector, or by GETC or IN at the end of the input. -/
theorem TrapNext.faultNext {x : BitVec 4} {v : Byte} {s t : State} {f : FaultRecord}
    (h : TrapNext (encode (.trap x v)) v s t) (hrun : s.run = .running) (hf : t.run = .faulted f) :
    FaultNext s (.trap x v) f t := by
  obtain ⟨-, hvec⟩ := encode_trap_fields x v
  cases h with
  | getc hv =>
    obtain ⟨ha, rfl, ht⟩ := State.readToR0_of_faulted hrun hf
    rw [ht, hvec]
    exact hv ▸ .getc x ha
  | input hv =>
    obtain ⟨ha, rfl, ht⟩ := State.readToR0_of_faulted (s := s.consoleWrite promptBytes) hrun hf
    rw [ht, hvec]
    exact hv ▸ .input x ha
  | undefined hnone =>
    cases hf
    rw [State.raiseUndefinedTrap, hvec]
    exact .undefined x v hnone
  | write => exact absurd hf (State.run_ne_faulted hrun f)
  | halt => cases hf

/-- In RUNNING an instruction that leads to FAULTED is one of the four causes, and does what `FaultNext` says. -/
theorem ExecNext.faultNext {i : Instr} {s t : State} {f : FaultRecord} (h : ExecNext s i t)
    (hrun : s.run = .running) (hf : t.run = .faulted f) : FaultNext s i f t := by
  cases h with
  | trap x v ht => exact ht.faultNext hrun hf
  | res x =>
    cases hf
    exact .res x
  | rti x =>
    cases hf
    exact .rti x
  | branch =>
    split at hf <;> exact absurd hf (State.run_ne_faulted hrun f)
  | result | store | jump | jsr | jsrr => exact absurd hf (State.run_ne_faulted hrun f)

/-! ### What a fault records and leaves -/

/-- The record holds the instruction's word and the address before PC (60_exceptions.md R92). -/
theorem FaultNext.record {s t : State} {i : Instr} {f : FaultRecord} (h : FaultNext s i f t) :
    f.ir = encode i ∧ f.addr = s.instrAddr := by
  cases h <;> exact ⟨rfl, rfl⟩

/-- A fault leaves registers, COND, memory, the input position and PC (60_exceptions.md R93). -/
theorem FaultNext.frame {s t : State} {i : Instr} {f : FaultRecord} (h : FaultNext s i f t) :
    t.regs = s.regs ∧ t.cond = s.cond ∧ t.mem = s.mem ∧ t.inPos = s.inPos ∧ t.pc = s.pc := by
  cases h <;> exact ⟨rfl, rfl, rfl, rfl, rfl⟩

/-- The prompt of IN is the one thing a faulting instruction writes to the output (43_trap.md R86). -/
theorem FaultNext.out_eq {s t : State} {i : Instr} {f : FaultRecord} (h : FaultNext s i f t) :
    (∀ x, i = .trap x 0x23 → t.out = s.out ++ Config.inPrompt) ∧ ((∀ x, i ≠ .trap x 0x23) → t.out = s.out) := by
  cases h with
  | input x => exact ⟨fun _ _ => rfl, fun hne => absurd rfl (hne x)⟩
  | undefined x v hnone =>
    refine ⟨fun x' heq => ?_, fun _ => rfl⟩
    cases heq
    cases hnone
  | res | rti | getc => exact ⟨fun _ heq => (by cases heq), fun _ => rfl⟩

/-- The causes of a fault and its kind (60_exceptions.md R92). -/
theorem FaultNext.cause {s t : State} {i : Instr} {f : FaultRecord} (h : FaultNext s i f t) :
    (f = .illegalOpcode (encode i) (s.pc - 1) ∧ ((∃ x, i = .res x) ∨ ∃ x, i = .rti x)) ∨
    (∃ x v, i = .trap x v ∧ (v.toNat < 0x20 ∨ 0x25 < v.toNat) ∧ f = .undefinedTrap v (encode i) (s.pc - 1)) ∨
    ∃ x v, i = .trap x v ∧ (v = 0x20 ∨ v = 0x23) ∧ s.consoleAnswer = .endOfInput ∧
      f = .inputExhausted v (encode i) (s.pc - 1) := by
  cases h with
  | res x => exact .inl ⟨rfl, .inl ⟨x, rfl⟩⟩
  | rti x => exact .inl ⟨rfl, .inr ⟨x, rfl⟩⟩
  | undefined x v hnone => exact .inr (.inl ⟨x, v, rfl, (TrapService.ofVector_none_iff v).1 hnone, rfl⟩)
  | getc x ha => exact .inr (.inr ⟨x, _, rfl, .inl rfl, ha, rfl⟩)
  | input x ha => exact .inr (.inr ⟨x, _, rfl, .inr rfl, ha, rfl⟩)

/-- A step not in a wait that leads to FAULTED is the fault of the instruction at PC, in the state after the fetch. -/
theorem step_faultNext {s t : State} {f : FaultRecord} (hwait : s.wait = none) (h : step s = .next t)
    (hf : t.run = .faulted f) : FaultNext s.afterFetch (decodeWord s.fetchWord) f t := by
  obtain ⟨hrun, -⟩ := step_next h
  rw [step_of_running_of_not_waiting hrun hwait] at h
  exact (exec_next h).faultNext hrun hf

/-- Settles O46, from the causes of a fault and from the word executed being the one at PC. -/
theorem faultKindsAndRecords : Obligations.FaultKindsAndRecords := by
  refine ⟨fun _ _ => rfl, fun _ _ _ => rfl, fun _ _ _ => rfl,
    fun i s t f h hrun hf => ((exec_next h).faultNext hrun hf).cause, fun s t f hwait h hf => ?_⟩
  obtain ⟨hir, haddr⟩ := (step_faultNext hwait h hf).record
  rw [hir, haddr, encode_decodeWord, State.afterFetch_instrAddr]
  exact ⟨rfl, rfl⟩

/-- Settles O47: FAULTED is terminal, and a faulting step is the fault of the instruction at PC or of the read that waits. -/
theorem faultsArePrecise : Obligations.FaultsArePrecise := by
  intro s t f h hf
  obtain ⟨hrun, hcase⟩ := step_next h
  have hstop (u : State) : step t ≠ .next u := fun hu => State.run_ne_faulted (step_next hu).1 f hf
  rcases hcase with ⟨ir, hwait, rfl⟩ | ⟨hwait, -⟩
  · obtain ⟨-, -, ht⟩ := State.readToR0_of_faulted hrun hf
    rw [ht] at hstop ⊢
    exact ⟨hstop, rfl, rfl, rfl, rfl, fun hnone => absurd (hwait.symm.trans hnone) (by simp), fun _ => ⟨rfl, rfl⟩⟩
  · have hfault := step_faultNext hwait h hf
    obtain ⟨hregs, hcond, hmem, hpos, hpc⟩ := hfault.frame
    exact ⟨hstop, hregs, hcond, hmem, hpos, fun _ => ⟨hpc, hfault.out_eq⟩, fun hne => absurd hwait hne⟩

/-! ### Who enters HALTED and FAULTED -/

/-- In RUNNING an instruction leads to HALTED exactly where it is TRAP HALT. -/
theorem exec_halted_iff {i : Instr} {s t : State} (h : exec i s = .next t) (hrun : s.run = .running) :
    t.run = .halted ↔ ∃ x, i = .trap x 0x25 := by
  constructor
  · intro ht
    rcases (exec_next h).run_cases with heq | ⟨-, hx⟩ | ⟨f, hf⟩
    · exact absurd (heq.symm.trans ht) (State.run_ne_halted hrun)
    · exact hx
    · exact absurd (hf.symm.trans ht) (by simp)
  · rintro ⟨x, rfl⟩
    cases (exec_trap_halt x s).symm.trans h
    rfl

/-- In RUNNING an instruction leads to FAULTED exactly by one of the four causes. -/
theorem exec_faulted_iff {i : Instr} {s t : State} (h : exec i s = .next t) (hrun : s.run = .running) :
    (∃ f, t.run = .faulted f) ↔
      (∃ x, i = .res x) ∨ (∃ x, i = .rti x) ∨ (∃ x v, i = .trap x v ∧ (v.toNat < 0x20 ∨ 0x25 < v.toNat)) ∨
        (isConsoleRead i = true ∧ s.consoleAnswer = .endOfInput) := by
  constructor
  · rintro ⟨f, hf⟩
    cases (exec_next h).faultNext hrun hf with
    | res x => exact .inl ⟨x, rfl⟩
    | rti x => exact .inr (.inl ⟨x, rfl⟩)
    | undefined x v hnone => exact .inr (.inr (.inl ⟨x, v, rfl, (TrapService.ofVector_none_iff v).1 hnone⟩))
    | getc x ha | input x ha => exact .inr (.inr (.inr ⟨rfl, ha⟩))
  · rintro (⟨x, rfl⟩ | ⟨x, rfl⟩ | ⟨x, v, rfl, hv⟩ | ⟨hread, ha⟩)
    · cases h
      exact ⟨_, rfl⟩
    · cases h
      exact ⟨_, rfl⟩
    · cases (exec_trap_undefined ((TrapService.ofVector_none_iff v).2 hv) x s).symm.trans h
      exact ⟨_, rfl⟩
    · obtain ⟨x, v, rfl, hv⟩ := isConsoleRead_iff.1 hread
      rcases (execTrap_next h).eq_readToR0 hv with rfl | rfl
      · exact ⟨_, congrArg State.run (s.readToR0_endOfInput _ ha)⟩
      · exact ⟨_, congrArg State.run (State.readToR0_endOfInput (s := s.consoleWrite promptBytes) _ ha)⟩

/-- Settles O45, from the two terminal states having no step, from who enters them, and from a console read never halting. -/
theorem runStateTransitions : Obligations.RunStateTransitions := by
  refine ⟨fun s hrun => ?_, fun s f hrun => ?_,
    fun i s t h hrun => ⟨exec_halted_iff h hrun, exec_faulted_iff h hrun⟩, fun s t h => ?_⟩
  · simp only [step, hrun]
  · simp only [step, hrun]
  · obtain ⟨hrun, ⟨ir, -, rfl⟩ | ⟨hwait, hexec⟩⟩ := step_next h
    · refine ⟨hrun, fun ht => ?_⟩
      rcases s.readToR0_run_cases ir with heq | ⟨f, hf⟩
      · exact absurd (heq.symm.trans ht) (State.run_ne_halted hrun)
      · exact absurd (hf.symm.trans ht) (by simp)
    · exact ⟨hrun, fun ht => ⟨hwait, (exec_halted_iff hexec hrun).1 ht⟩⟩

/-! ### Every instruction completes -/

/-- An instruction has a next state, or it is PUTS or PUTSP and no word of memory ends its string. -/
theorem exec_next_or_endlessString (i : Instr) (s : State) :
    (∃ t, exec i s = .next t) ∨
      (exec i s = .fault .endlessString ∧ (∀ a, s.readMem a ≠ 0) ∧ ∃ x v, i = .trap x v ∧ (v = 0x22 ∨ v = 0x24)) := by
  cases i with
  | trap x v =>
    rcases trapWithLink_cases trapLinks x v s with ⟨t, -, h⟩ | ⟨hv, hz, h⟩
    · exact .inl ⟨t, h⟩
    · exact .inr ⟨h, hz, x, v, rfl, hv⟩
  | branch | addRegister | addImmediate | andRegister | andImmediate | not | load | loadi | loadr | lea | store | storei
  | storer | jump | jumprJsr | jumprJsrr | res | rti => exact .inl ⟨_, rfl⟩

/-- Settles O48: a zero word in memory rules the endless string out. -/
theorem everyInstructionCompletes : Obligations.EveryInstructionCompletes := by
  refine ⟨fun i s ⟨a, ha⟩ => ?_, exec_next_or_endlessString⟩
  rcases exec_next_or_endlessString i s with h | ⟨-, hz, -⟩
  · exact h
  · exact absurd ha (hz a)

end Sys2Proof.Machine
end

section
/-! ## Memory and the loader (20_memory.md, 70_reset_and_hazards.md R110, R113): stores seen by the fetch, the canonical
form, the image -/

namespace Sys2Proof.Machine

open Sys2Proof.Claims

/-! ### A stored word is what the next fetch reads -/

/-- Settles O51: a store writes memory and nothing else, so the next step is taken in RUNNING and fetches the word stored. -/
theorem storeIsSeenByNextFetch : Obligations.StoreIsSeenByNextFetch := by
  intro s t a v hwf hrun hwait h hst
  rw [step_of_running_of_not_waiting hrun hwait] at h
  obtain rfl := (exec_next h).eq_writeMem hst
  obtain ⟨hread, -⟩ := Memory.write_storedAt hwf a v
  refine ⟨hread, fun hpc => ?_⟩
  have hfetch : (s.afterFetch.writeMem a v).fetchWord = v := by
    rw [State.fetchWord, ← hpc]
    exact hread
  rw [step_of_running_of_not_waiting (s := s.afterFetch.writeMem a v) hrun hwait, hfetch]
  rfl

/-! ### The canonical form -/

/-- The first listed cell reads as its word. -/
@[simp] theorem Memory.readAt_head (k : Nat) (w : Word) (rest : Memory) : Memory.readAt ((k, w) :: rest) k = w := by
  simp [Memory.readAt]

/-- Every other address reads as in the rest of the list. -/
theorem Memory.readAt_tail {k a : Nat} (h : a ≠ k) (w : Word) (rest : Memory) :
    Memory.readAt ((k, w) :: rest) a = rest.readAt a := by
  rw [Memory.readAt, if_neg (Ne.symm h)]

/-- The first listed word is not what an unlisted address reads as, so a list that reads the same starts no further up. -/
theorem Memory.head_le_of_readAt_eq {k k' : Nat} {w w' : Word} {rest rest' : Memory}
    (h : Memory.wf ((k, w) :: rest)) (h' : Memory.wf ((k', w') :: rest'))
    (heq : ∀ a < Config.memorySize, Memory.readAt ((k, w) :: rest) a = Memory.readAt ((k', w') :: rest') a) : k' ≤ k := by
  obtain ⟨-, hk, hw, -⟩ := Memory.wf_cons_iff.1 h
  obtain ⟨hlt', -, -, -⟩ := Memory.wf_cons_iff.1 h'
  by_contra hlt
  have hunlisted : Memory.readAt ((k', w') :: rest') k = Memory.unlisted := by
    refine Memory.readAt_of_lt fun c hc => ?_
    rcases List.mem_cons.1 hc with rfl | hc
    · exact Nat.lt_of_not_le hlt
    · have := hlt' c hc
      omega
  exact hw (by rw [← hunlisted, ← heq k hk, Memory.readAt_head])

/-- Memories in canonical form that read the same everywhere are the same list, cell by cell. -/
theorem Memory.eq_of_readAt_eq {m m' : Memory} (h : m.wf) (h' : m'.wf)
    (heq : ∀ a < Config.memorySize, m.readAt a = m'.readAt a) : m = m' := by
  induction m generalizing m' with
  | nil =>
    cases m' with
    | nil => rfl
    | cons c' rest' =>
      obtain ⟨-, hk', hw', -⟩ := Memory.wf_cons_iff.1 h'
      exact absurd ((heq c'.1 hk').trans (Memory.readAt_head _ _ _)).symm hw'
  | cons c rest ih =>
    obtain ⟨hlt, hk, hw, hrest⟩ := Memory.wf_cons_iff.1 h
    cases m' with
    | nil => exact absurd ((heq c.1 hk).symm.trans (Memory.readAt_head _ _ _)).symm hw
    | cons c' rest' =>
      obtain ⟨k, w⟩ := c
      obtain ⟨k', w'⟩ := c'
      obtain ⟨hlt', -, -, hrest'⟩ := Memory.wf_cons_iff.1 h'
      obtain rfl : k = k' :=
        Nat.le_antisymm (Memory.head_le_of_readAt_eq h' h fun a ha => (heq a ha).symm)
          (Memory.head_le_of_readAt_eq h h' heq)
      obtain rfl : w = w' := by simpa using heq k hk
      congr 1
      refine ih hrest hrest' fun a ha => ?_
      by_cases hak : a = k
      · subst hak
        rw [Memory.readAt_of_lt hlt, Memory.readAt_of_lt hlt']
      · have := heq a ha
        rwa [Memory.readAt_tail hak, Memory.readAt_tail hak] at this

/-- Settles O52: the 16-bit addresses are all the addresses a canonical list can hold. -/
theorem canonicalMemoriesAreEqualData : Obligations.CanonicalMemoriesAreEqualData := by
  intro m m' h h' heq
  refine Memory.eq_of_readAt_eq h h' fun a ha => ?_
  have hread := heq (BitVec.ofNat 16 a)
  rwa [Memory.read, Memory.read, BitVec.toNat_ofNat, Nat.mod_eq_of_lt (show a < 2 ^ 16 from ha)] at hread

/-! ### The image -/

/-- Fewer than 65536 words on from an address there is another address. -/
theorem wordAfter_ne_self {a : Word} {j : Nat} (hj : 0 < j) (hj' : j < Config.memorySize) : a ≠ wordAfter a j := by
  intro h
  have hnat := congrArg BitVec.toNat h
  have ha := a.isLt
  simp only [wordAfter, BitVec.toNat_add, BitVec.toNat_ofNat, Config.memorySize] at *
  omega

/-- Addresses that no word of the list goes to read as before. -/
theorem Memory.read_writeWords_of_ne {m : Memory} (h : m.wf) {a b : Word} {ws : List Word}
    (hb : ∀ k < ws.length, b ≠ wordAfter a k) : (m.writeWords a ws).read b = m.read b := by
  induction ws generalizing m a with
  | nil => rfl
  | cons v vs ih =>
    have hba : b ≠ a := wordAfter_zero a ▸ hb 0 (by simp)
    have hrest := ih (Memory.write_wf h a v) (a := a + 1) fun k hk => wordAfter_next a k ▸ hb (k + 1) (by simpa using hk)
    rw [Memory.writeWords, hrest, Memory.read_write h, if_neg hba]

/-- Word `k` of a list of at most 65536 words is read `k` words after the first, since no later one goes there too. -/
theorem Memory.read_writeWords {m : Memory} (h : m.wf) {a : Word} {ws : List Word}
    (hlen : ws.length ≤ Config.memorySize) (k : Nat) (hk : k < ws.length) :
    (m.writeWords a ws).read (wordAfter a k) = ws[k] := by
  induction ws generalizing m a k with
  | nil => simp at hk
  | cons v vs ih =>
    rw [List.length_cons] at hlen hk
    cases k with
    | zero =>
      have hne : ∀ j < vs.length, a ≠ wordAfter (a + 1) j := fun j hj =>
        wordAfter_next a j ▸ wordAfter_ne_self (Nat.succ_pos j) (by omega)
      rw [wordAfter_zero, Memory.writeWords, Memory.read_writeWords_of_ne (Memory.write_wf h a v) hne,
        Memory.read_write h, if_pos rfl]
      rfl
    | succ k =>
      rw [← wordAfter_next]
      exact ih (Memory.write_wf h a v) (by omega) k (by omega)

/-- An image of more than 65536 words is refused. -/
theorem State.load_eq_none {s : State} {origin : Word} {image : List Word} (h : Config.memorySize < image.length) :
    s.load origin image = none := by
  rw [State.load, if_neg (by omega)]

/-- Settles O53, from where the words of the image go, where none goes, and the refusal. -/
theorem loaderPlacesImage : Obligations.LoaderPlacesImage := by
  refine ⟨fun origin image input s h => ?_, fun s origin image hwf => ⟨fun hlen => ?_, State.load_eq_none⟩⟩
  · obtain ⟨-, rfl⟩ := State.load_eq_some_iff.1 h
    exact ⟨rfl, rfl⟩
  · exact ⟨s.mem.writeWords origin image, State.load_eq_some_iff.2 ⟨hlen, rfl⟩,
      Memory.read_writeWords hwf hlen, fun a => Memory.read_writeWords_of_ne hwf⟩

/-- At allocation every register is zero. -/
theorem State.reset_readReg (r : Reg) : State.reset.readReg r = 0 := by
  simp [State.readReg, State.reset]

/-- Settles O54, from the reset state and from the loader changing memory and PC alone. -/
theorem resetAndStartValues : Obligations.ResetAndStartValues := by
  refine ⟨⟨State.reset_readReg, rfl, rfl, Memory.reset_read⟩, fun origin image input hlen => ?_⟩
  have hwf := Memory.reset_wf
  exact ⟨_, State.load_eq_some_iff.2 ⟨hlen, rfl⟩, State.reset_readReg, rfl, rfl, Memory.read_writeWords hwf hlen,
    fun a ha => Memory.read_writeWords_of_ne hwf ha, rfl, rfl, rfl, rfl⟩

end Sys2Proof.Machine
end
